-- ==== Sys2Proof/Word.lean ====
section
/-! DEFINITION. The words of the machine (spec/00_scope.md rules R1 and R3): every value is an
unsigned number of a stated width, and arithmetic wraps at that width. -/

namespace Sys2Proof

/-- An 8-bit value: a general register, a timer, a memory cell, a framebuffer cell, the field `KK`. -/
abbrev Byte := BitVec 8

/-- A 16-bit value: an instruction word, `PC`, `I`, a stack cell (R1: `PC_BITS`, `I_BITS`, `STACK_ENTRY_BITS`). -/
abbrev Word := BitVec 16

/-- A 12-bit value: the address operand `NNN` (R62). -/
abbrev Addr := BitVec 12

/-- A 4-bit value: one of the fields `FAM`, `X`, `Y`, `N` as bits (R62), a key code (R21), the stack cursor (R18). -/
abbrev Nibble := BitVec 4

/-- A general register's index, 0x0 to 0xF (R11). -/
abbrev Reg := Fin 16

end Sys2Proof
end

