-- ==== Sys2Proof/Syntax.lean ====
section
/-! DEFINITION. The 35 instructions, one constructor per row of spec/opcode_table.json, in its order
(spec/30_encoding.md, the full map of section 3). -/

namespace Sys2Proof

/-- An instruction with its decoded operands. Register fields are `x` and `y`, immediates `kk` and `nnn`,
the sprite height `n` (R62, R64). SHR and SHL take one register: their `Y` field is ignored (R77, log 14).
For LD [I],Vx and LD Vx,[I] the operand `x` is the last register of the range (C2, log 17). -/
inductive Instr where
  | cls
  | ret
  | sys (nnn : Addr)
  | jp (nnn : Addr)
  | call (nnn : Addr)
  | seVxKk (x : Reg) (kk : Byte)
  | sneVxKk (x : Reg) (kk : Byte)
  | seVxVy (x y : Reg)
  | ldVxKk (x : Reg) (kk : Byte)
  | addVxKk (x : Reg) (kk : Byte)
  | ldVxVy (x y : Reg)
  | or (x y : Reg)
  | and (x y : Reg)
  | xor (x y : Reg)
  | addVxVy (x y : Reg)
  | sub (x y : Reg)
  | shr (x : Reg)
  | subn (x y : Reg)
  | shl (x : Reg)
  | sneVxVy (x y : Reg)
  | ldINnn (nnn : Addr)
  | jpV0 (nnn : Addr)
  | rnd (x : Reg) (kk : Byte)
  | drw (x y : Reg) (n : Fin 16)
  | skp (x : Reg)
  | sknp (x : Reg)
  | ldVxDt (x : Reg)
  | ldVxK (x : Reg)
  | ldDtVx (x : Reg)
  | ldStVx (x : Reg)
  | addIVx (x : Reg)
  | ldFVx (x : Reg)
  | ldBVx (x : Reg)
  | ldMiVx (x : Reg)
  | ldVxMi (x : Reg)
  deriving DecidableEq, Repr

end Sys2Proof
end

