-- ==== Sys2Proof/WellFormed.lean ====
section
/-! DEFINITION. Which terms of `Instr` stand for an encoding. The operand types carry every width, so the
one check left is R66: the words 0x00E0 and 0x00EE are CLS and RET, never SYS. -/

namespace Sys2Proof

/-- An instruction that some word encodes: SYS does not take the operands of CLS and RET (R66, R76). -/
def Instr.wf : Instr → Bool
  | .sys nnn => nnn != 0x0E0#12 && nnn != 0x0EE#12
  | _ => true

end Sys2Proof
end

