-- ==== Sys2Proof/Decode.lean ====
section
/-! DEFINITION. The instruction decoder and the encoder (spec/30_encoding.md). The opcode numbers are the
spec's from general knowledge (R65 to R71, D1; log 1). -/

namespace Sys2Proof

/-! ### Fields (R62) -/

/-- `w[lo+3:lo]`, as an index 0 to 15. -/
def nibbleAt (w : Word) (lo : Nat) : Fin 16 := (w.extractLsb' lo 4).toFin

/-- `FAM = w[15:12]`. -/
def fieldFam (w : Word) : Fin 16 := nibbleAt w 12
/-- `X = w[11:8]`. -/
def fieldX (w : Word) : Reg := nibbleAt w 8
/-- `Y = w[7:4]`. -/
def fieldY (w : Word) : Reg := nibbleAt w 4
/-- `N = w[3:0]`. -/
def fieldN (w : Word) : Fin 16 := nibbleAt w 0
/-- `KK = w[7:0]`. -/
def fieldKK (w : Word) : Byte := w.extractLsb' 0 8
/-- `NNN = w[11:0]`. -/
def fieldNNN (w : Word) : Addr := w.extractLsb' 0 12

/-! ### Decoding (R65 to R71, R76) -/

/-- Why a word is illegal: the row of R71 it falls under. -/
inductive Illegal where
  | family5
  | family8
  | family9
  | familyE
  | familyF
  deriving DecidableEq, Repr

/-- Family 0 (R66): the two fixed words first, every other word is SYS. -/
def decodeFamily0 (w : Word) : Instr :=
  if w = 0x00E0#16 then .cls else if w = 0x00EE#16 then .ret else .sys (fieldNNN w)

/-- Family 8, selected by `N` (R67). -/
def decodeFamily8 (w : Word) : Except Illegal Instr :=
  match (fieldN w).val with
  | 0x0 => .ok (.ldVxVy (fieldX w) (fieldY w))
  | 0x1 => .ok (.or (fieldX w) (fieldY w))
  | 0x2 => .ok (.and (fieldX w) (fieldY w))
  | 0x3 => .ok (.xor (fieldX w) (fieldY w))
  | 0x4 => .ok (.addVxVy (fieldX w) (fieldY w))
  | 0x5 => .ok (.sub (fieldX w) (fieldY w))
  | 0x6 => .ok (.shr (fieldX w))
  | 0x7 => .ok (.subn (fieldX w) (fieldY w))
  | 0xE => .ok (.shl (fieldX w))
  | _ => .error .family8

/-- Family E, selected by `KK` (R68). -/
def decodeFamilyE (w : Word) : Except Illegal Instr :=
  match (fieldKK w).toNat with
  | 0x9E => .ok (.skp (fieldX w))
  | 0xA1 => .ok (.sknp (fieldX w))
  | _ => .error .familyE

/-- Family F, selected by `KK` (R69). -/
def decodeFamilyF (w : Word) : Except Illegal Instr :=
  match (fieldKK w).toNat with
  | 0x07 => .ok (.ldVxDt (fieldX w))
  | 0x0A => .ok (.ldVxK (fieldX w))
  | 0x15 => .ok (.ldDtVx (fieldX w))
  | 0x18 => .ok (.ldStVx (fieldX w))
  | 0x1E => .ok (.addIVx (fieldX w))
  | 0x29 => .ok (.ldFVx (fieldX w))
  | 0x33 => .ok (.ldBVx (fieldX w))
  | 0x55 => .ok (.ldMiVx (fieldX w))
  | 0x65 => .ok (.ldVxMi (fieldX w))
  | _ => .error .familyF

/-- The instruction a 16-bit word selects, or why it is illegal. Dispatch by family (R65); families 5 and 9
need `N = 0` (R70, D9, log 16); the last arm is family 0xF. -/
def decodeWord (w : Word) : Except Illegal Instr :=
  match (fieldFam w).val with
  | 0x0 => .ok (decodeFamily0 w)
  | 0x1 => .ok (.jp (fieldNNN w))
  | 0x2 => .ok (.call (fieldNNN w))
  | 0x3 => .ok (.seVxKk (fieldX w) (fieldKK w))
  | 0x4 => .ok (.sneVxKk (fieldX w) (fieldKK w))
  | 0x5 => if fieldN w = 0 then .ok (.seVxVy (fieldX w) (fieldY w)) else .error .family5
  | 0x6 => .ok (.ldVxKk (fieldX w) (fieldKK w))
  | 0x7 => .ok (.addVxKk (fieldX w) (fieldKK w))
  | 0x8 => decodeFamily8 w
  | 0x9 => if fieldN w = 0 then .ok (.sneVxVy (fieldX w) (fieldY w)) else .error .family9
  | 0xA => .ok (.ldINnn (fieldNNN w))
  | 0xB => .ok (.jpV0 (fieldNNN w))
  | 0xC => .ok (.rnd (fieldX w) (fieldKK w))
  | 0xD => .ok (.drw (fieldX w) (fieldY w) (fieldN w))
  | 0xE => decodeFamilyE w
  | _ => decodeFamilyF w

/-- Why bytes are no instruction: fewer than two of them (R61), or an illegal word (R71). -/
inductive Reject where
  | short (raw : List Byte)
  | illegal (w : Word) (why : Illegal)
  deriving DecidableEq, Repr

/-- `w = b0 ++ b1`: the byte at the lower address is the high byte (R44, R60). -/
def wordOfBytes (b0 b1 : Byte) : Word := b0 ++ b1

/-- The two bytes of a word, high byte first (R44, R60). -/
def bytesOfWord (w : Word) : Byte × Byte := (w.extractLsb' 8 8, w.extractLsb' 0 8)

/-- Decoding of bytes in memory order: the first two make the word (R60), the rest is left over. -/
def decode : List Byte → Except Reject (Instr × List Byte)
  | b0 :: b1 :: rest =>
    match decodeWord (wordOfBytes b0 b1) with
    | .ok i => .ok (i, rest)
    | .error why => .error (.illegal (wordOfBytes b0 b1) why)
  | raw => .error (.short raw)

/-! ### Encoding (R63, R74) -/

/-- A register index or nibble operand as its four bits. -/
def nibble (x : Fin 16) : Nibble := BitVec.ofFin x

/-- Format NNN: `FAM ++ NNN`. -/
def encodeNNN (fam : Nibble) (nnn : Addr) : Word := fam ++ nnn
/-- Format XKK, and XSS with the sub-opcode for `KK`: `FAM ++ X ++ KK`. -/
def encodeXKK (fam : Nibble) (x : Reg) (kk : Byte) : Word := fam ++ nibble x ++ kk
/-- Format XYN, and XYS with the sub-opcode for `N`: `FAM ++ X ++ Y ++ N`. -/
def encodeXYN (fam : Nibble) (x y n : Fin 16) : Word := fam ++ nibble x ++ nibble y ++ nibble n

/-- The word of an instruction, row by row of the map of 30_encoding.md section 3. SHR and SHL assemble with
`Y = 0` (R74). -/
def encode : Instr → Word
  | .cls => 0x00E0#16
  | .ret => 0x00EE#16
  | .sys nnn => encodeNNN 0x0 nnn
  | .jp nnn => encodeNNN 0x1 nnn
  | .call nnn => encodeNNN 0x2 nnn
  | .seVxKk x kk => encodeXKK 0x3 x kk
  | .sneVxKk x kk => encodeXKK 0x4 x kk
  | .seVxVy x y => encodeXYN 0x5 x y 0x0
  | .ldVxKk x kk => encodeXKK 0x6 x kk
  | .addVxKk x kk => encodeXKK 0x7 x kk
  | .ldVxVy x y => encodeXYN 0x8 x y 0x0
  | .or x y => encodeXYN 0x8 x y 0x1
  | .and x y => encodeXYN 0x8 x y 0x2
  | .xor x y => encodeXYN 0x8 x y 0x3
  | .addVxVy x y => encodeXYN 0x8 x y 0x4
  | .sub x y => encodeXYN 0x8 x y 0x5
  | .shr x => encodeXYN 0x8 x 0x0 0x6
  | .subn x y => encodeXYN 0x8 x y 0x7
  | .shl x => encodeXYN 0x8 x 0x0 0xE
  | .sneVxVy x y => encodeXYN 0x9 x y 0x0
  | .ldINnn nnn => encodeNNN 0xA nnn
  | .jpV0 nnn => encodeNNN 0xB nnn
  | .rnd x kk => encodeXKK 0xC x kk
  | .drw x y n => encodeXYN 0xD x y n
  | .skp x => encodeXKK 0xE x 0x9E
  | .sknp x => encodeXKK 0xE x 0xA1
  | .ldVxDt x => encodeXKK 0xF x 0x07
  | .ldVxK x => encodeXKK 0xF x 0x0A
  | .ldDtVx x => encodeXKK 0xF x 0x15
  | .ldStVx x => encodeXKK 0xF x 0x18
  | .addIVx x => encodeXKK 0xF x 0x1E
  | .ldFVx x => encodeXKK 0xF x 0x29
  | .ldBVx x => encodeXKK 0xF x 0x33
  | .ldMiVx x => encodeXKK 0xF x 0x55
  | .ldVxMi x => encodeXKK 0xF x 0x65

/-! ### The host's question about a table word -/

/-- The instruction the decoder reads from an instruction whose table bits are `w` (bits at and above `nbits`
are 0): the word laid out as two bytes, high byte at the lower address, given to `decode`. -/
def decodeTableWord (nbits w : Nat) : Option Instr :=
  match decode [(bytesOfWord (BitVec.ofNat 16 (w % 2 ^ nbits))).1, (bytesOfWord (BitVec.ofNat 16 (w % 2 ^ nbits))).2] with
  | .ok (i, _) => some i
  | .error _ => none

end Sys2Proof
end

