-- ==== Sys2Proof/Config.lean ====
section
/-! DEFINITION. What is fixed for the machine, and its one free value.

Rule R1 (spec/00_scope.md) fixes every size and no parameter changes them. They appear as the types of
`State` and as the literals of the rules: MEM_SIZE 4096, ADDR_BITS 12, NUM_V 16, V_BITS 8, NUM_TIMERS 2,
STACK_DEPTH 16, STACK_ENTRY_BITS 16, PC_BITS and I_BITS 16, FB 64 by 32 in 256 bytes, INSTR_BYTES 2,
GLYPH_BASE 0x000 with 16 glyphs of 5 bytes, NUM_KEYS 16. -/

namespace Sys2Proof.Config

/-- `PROG_START` of R1: the entry point (R221) and the address a program image is loaded at (R171). -/
def progStart : Word := 0x200#16

/-- `FLAG_REG` of R1: `VF` is register 0xF (R12). -/
def flagReg : Reg := 15

/-- The random source (R93, R176, U9): the byte that the `n`-th free draw gives. DESIGN CHOICE (log 2), safe:
it has no body, so no proof can use a value of it. -/
opaque rndByte : Nat → Byte

end Sys2Proof.Config
end

