-- ==== Sys2Proof/Machine/State.lean ====
section
/-! DEFINITION. The machine's state (spec/10_state.md rules R11 to R22), the environment it stands in
(spec/45_environment_ops.md), the faults (spec/60_exceptions.md rule R190) and the state after reset (R24). -/

namespace Sys2Proof.Machine

/-- Memory (R22): the cells that differ from the reset contents, as (address, byte) pairs in strictly rising
order of address (log 26). `Memory.wf` says so; what an unlisted cell reads as is `resetByte`. -/
abbrev Memory := List Host.Cell

/-- One event of a run (R178): the driver's `step` (R177), or an environment operation (R170 to R175). -/
inductive Event where
  | step
  | reset
  | loadProgram (bytes : List Byte)
  | keySet (k : Nibble)
  | keyClear
  | timerTick
  | fbRead
  deriving DecidableEq, Repr

/-- What the block hands out without storing it (R179, R175): the report of a SYS word with its address and
raw word (R194), and the frame a renderer read. -/
inductive Output where
  | sysReport (addr raw : Word)
  | frame (bytes : Vector Byte 256)
  deriving DecidableEq, Repr

/-- The environment's side. No field of it is state of the block (R23); it stands in `State` so that one
deterministic step covers every schedule and every draw (logs 2, 3, 4, 9).
`schedule`: the events that come before the driver's own next step, first one first.
`rndQueue`: bytes injected into the random source (R176), used before any free draw.
`rndDraws`: how many free draws `Config.rndByte` has given.
`outputs`: what the block has handed out, oldest first. -/
structure Environment where
  schedule : List Event
  rndQueue : List Byte
  rndDraws : Nat
  outputs : List Output
  deriving DecidableEq, Repr

/-- The state of the block, and its environment.
`mem` R22; `v` R11 (`VF` is index 0xF, R12); `dt`, `st` R13; `i` R14; `pc` R15; `stack`, `sp` R18;
`fb` R19; `key` R21 (`none` is "no key"). -/
structure State where
  mem : Memory
  v : Vector Byte 16
  dt : Byte
  st : Byte
  i : Word
  pc : Word
  stack : Vector Word 16
  sp : Nibble
  fb : Vector Byte 256
  key : Option Nibble
  env : Environment
  deriving DecidableEq, Repr

/-- The faults of R190, each with the values it records: the `PC` of the instruction and the raw bytes
(R179). The step ends and no state changes (R198); the run ends there (log 6). All three are safe: the spec
names each, and a fault claims no later state. -/
inductive Fault where
  /-- Code 1. Raised by the fetch when two bytes cannot be read (R191). Safe. -/
  | fetchFault (addr : Word) (raw : List Byte)
  /-- Code 2. Raised by the decoder on an illegal word (R192). Safe. -/
  | illegalInstruction (addr raw : Word)
  /-- Code 3. Raised by LD B,Vx and LD [I],Vx when the bytes do not fit below 4096 (R193). Safe. -/
  | memWriteOverrun (addr raw : Word)
  deriving DecidableEq, Repr

/-- What the model gives no meaning to. -/
inductive Refusal where
  /-- Raised by `exec` for an instruction that has no meaning yet; no arm is left that does. Safe. -/
  | notModelled (mnemonic : String)
  /-- Raised by the event `loadProgram` when the image is longer than 3584 bytes: R171 gives such a launch no
  meaning (log 10). No instruction raises it. Safe. -/
  | launchRefused (length : Nat)
  deriving DecidableEq, Repr

/-- The state after `reset` (R24, R220): memory holds its reset contents, so nothing is listed. The
environment's fields are the model's own (log 9). -/
def State.reset : State where
  mem := []
  v := Vector.replicate 16 0
  dt := 0
  st := 0
  i := 0
  pc := Config.progStart
  stack := Vector.replicate 16 0
  sp := 0
  fb := Vector.replicate 256 0
  key := none
  env := { schedule := [], rndQueue := [], rndDraws := 0, outputs := [] }

end Sys2Proof.Machine
end

