-- ==== Sys2Proof/Machine/Ops.lean ====
section
/-! DEFINITION. The operations every meaning is written over: registers, the program counter, the two memory
primitives, the call stack, the random draw, the SYS report, and the raising of a fault. -/

namespace Sys2Proof.Machine

/-- How a step ends. -/
abbrev Result := Host.Outcome State Fault Refusal

/-! ### Registers (R11, R80) -/

/-- `V[x]`. -/
def State.getV (s : State) (x : Reg) : Byte := s.v[x.val]

/-- `V[x] <- b`. -/
def State.setV (s : State) (x : Reg) (b : Byte) : State := { s with v := s.v.set x.val b }

/-- `VF` (R12). -/
def State.vf (s : State) : Byte := s.getV Config.flagReg

/-- The result goes to `V[x]`, then the flag to `VF`: the flag write is last (R80, log 13). -/
def State.setResultAndFlag (s : State) (x : Reg) (result flag : Byte) : State :=
  (s.setV x result).setV Config.flagReg flag

/-- `V[j] <- bytes[0], V[j+1] <- bytes[1], ...`: registers without a byte keep their values (R125). -/
def loadRegs (v : Vector Byte 16) (j : Nat) : List Byte → Vector Byte 16
  | [] => v
  | b :: rest => loadRegs (v.setIfInBounds j b) (j + 1) rest

/-- `[V[0], ..., V[x]]` (R124). -/
def State.regsUpTo (s : State) (x : Reg) : List Byte := s.v.toList.take (x.val + 1)

/-! ### The program counter (R16, R17) -/

/-- `npc = (PC + 2) mod 65536`, the address after the instruction. -/
def State.npc (s : State) : Word := s.pc + 2

/-- `PC <- target`. -/
def State.jump (s : State) (target : Word) : State := { s with pc := target }

/-- `PC <- npc`: the end of every instruction that is no control transfer. -/
def State.advance (s : State) : State := s.jump s.npc

/-- A skip: `PC <- (npc + 2) mod 65536` when the condition holds, else `PC <- npc`. -/
def State.skipIf (s : State) (condition : Bool) : State :=
  if condition then s.jump (s.npc + 2) else s.advance

/-! ### Memory (R41 to R43) -/

/-- The address an access given `addr` starts at: `addr mod 4096`, once, for the start only (R41). -/
def startAddr (addr : Word) : Nat := addr.toNat % 4096

/-- `MemRead(addr, n)`, clamped at the end of memory (R42). -/
def State.memRead (s : State) (addr : Word) (n : Nat) : List Byte :=
  s.mem.readRun (startAddr addr) (min n (4096 - startAddr addr))

/-- `MemWrite(addr, bytes)` (R43): none when the bytes would overrun, and then nothing is written. -/
def State.memWrite (s : State) (addr : Word) (bytes : List Byte) : Option State :=
  if startAddr addr + bytes.length > 4096 then none
  else some { s with mem := s.mem.writeRun (startAddr addr) bytes }

/-! ### The call stack (R100, R101) -/

/-- `STACK[j]` (R18). -/
def State.stackCell (s : State) (j : Nibble) : Word := s.stack[j.toNat]

/-- `Push(addr)`: store at the cursor, advance it modulo 16. -/
def State.push (s : State) (addr : Word) : State :=
  { s with stack := s.stack.set s.sp.toNat addr, sp := s.sp + 1 }

/-- `Pop()`: move the cursor back modulo 16 and give the cell it then names, which keeps its value. -/
def State.pop (s : State) : Word × State :=
  (s.stackCell (s.sp - 1), { s with sp := s.sp - 1 })

/-! ### The random source (R93, R176; log 2) -/

/-- The byte the next RND step gets: an injected one if there is any, else the free draw. -/
def State.rndNext (s : State) : Byte :=
  match s.env.rndQueue with
  | b :: _ => b
  | [] => Config.rndByte s.env.rndDraws

/-- The source after that draw. -/
def State.rndTaken (s : State) : State :=
  match s.env.rndQueue with
  | _ :: rest => { s with env := { s.env with rndQueue := rest } }
  | [] => { s with env := { s.env with rndDraws := s.env.rndDraws + 1 } }

/-! ### Outputs and faults (R179, R190, R194, R198) -/

/-- Hand out one output (log 4). -/
def State.emit (s : State) (o : Output) : State :=
  { s with env := { s.env with outputs := s.env.outputs ++ [o] } }

/-- `raise MemWriteOverrun(PC, w)` for the word `w` of instruction `i` (R193, log 24). There is no trap entry:
the step ends with the fault and changes nothing (R198). -/
def raiseOverrun (i : Instr) (s : State) : Result := .fault (.memWriteOverrun s.pc (encode i))

/-- A store instruction: `MemWrite(I, bytes)`, then `PC <- npc`, or the fault (R123, R124). -/
def storeAtI (i : Instr) (bytes : List Byte) (s : State) : Result :=
  match s.memWrite s.i bytes with
  | some t => .next t.advance
  | none => raiseOverrun i s

/-- The fault's code (R190). -/
def Fault.code : Fault → Nat
  | .fetchFault _ _ => 1
  | .illegalInstruction _ _ => 2
  | .memWriteOverrun _ _ => 3

/-- The fault's offending address (R179). -/
def Fault.addr : Fault → Word
  | .fetchFault a _ => a
  | .illegalInstruction a _ => a
  | .memWriteOverrun a _ => a

/-- The fault's raw bytes, in memory order (R179). -/
def Fault.raw : Fault → List Byte
  | .fetchFault _ raw => raw
  | .illegalInstruction _ w => [(bytesOfWord w).1, (bytesOfWord w).2]
  | .memWriteOverrun _ w => [(bytesOfWord w).1, (bytesOfWord w).2]

end Sys2Proof.Machine
end

