-- ==== Sys2Proof/Machine/Operands.lean ====
section
/-! DEFINITION. The values that operands stand for: zero-extended immediates (R64), decimal digits (R123), the
glyph address (R122), key comparison (R150), and the screen coordinates and pixels of a draw (R20, R141, R142). -/

namespace Sys2Proof.Machine

/-- `zext_16(NNN)` (R64). -/
def zextAddr (nnn : Addr) : Word := nnn.setWidth 16

/-- `zext_16` of a byte. -/
def zextByte (b : Byte) : Word := b.setWidth 16

/-- `zext_8` of a key code (R150, R152). -/
def zextKey (k : Nibble) : Byte := k.setWidth 8

/-- The target of JP V0,nnn: not reduced to 12 bits (R110, D5, log 12). -/
def offsetTarget (nnn : Addr) (v0 : Byte) : Word := zextAddr nnn + zextByte v0

/-- The glyph address `V[X] * 5` of the whole byte (R122, D37, log 20). -/
def glyphAddr (b : Byte) : Word := zextByte b * 5

/-- The hundreds, tens and ones digits (R123). -/
def bcdDigits (b : Byte) : List Byte :=
  [BitVec.ofNat 8 (b.toNat / 100), BitVec.ofNat 8 (b.toNat / 10 % 10), BitVec.ofNat 8 (b.toNat % 10)]

/-- Whether the key held down is the one `b` names; the whole byte is compared (R150, D27, log 19). -/
def keyMatches (key : Option Nibble) (b : Byte) : Bool :=
  match key with
  | none => false
  | some k => zextKey k == b

/-- `x0 = V[X] mod 64` (R141). -/
def column (b : Byte) : Fin 64 := ⟨b.toNat % 64, Nat.mod_lt _ (by decide)⟩

/-- `y0 = V[Y] mod 32` (R141). -/
def row (b : Byte) : Fin 32 := ⟨b.toNat % 32, Nat.mod_lt _ (by decide)⟩

/-- The index of byte `b` of row `y` in the framebuffer: `y * 8 + b` (R20, R142). -/
def fbIndex (y : Fin 32) (b : Fin 8) : Fin 256 := ⟨y.val * 8 + b.val, by omega⟩

/-- The first byte a sprite row at column `x0` touches: `x0 div 8` (R142). -/
def firstByte (x0 : Fin 64) : Fin 8 := ⟨x0.val / 8, by omega⟩

/-- The pixel at column `x`, row `y`: bit `7 - (x mod 8)` of its byte (R20). -/
def pixel (fb : Vector Byte 256) (x : Fin 64) (y : Fin 32) : Bool :=
  (fb[(fbIndex y (firstByte x)).val]).getLsbD (7 - x.val % 8)

/-- `left = r >> s` (R142). -/
def leftPart (r : Byte) (s : Nat) : Byte := r >>> s

/-- `right = (r << (8 - s)) mod 256` (R142). -/
def rightPart (r : Byte) (s : Nat) : Byte := r <<< (8 - s)

end Sys2Proof.Machine
end

