-- ==== Sys2Proof/Machine/ControlFlow.lean ====
section
/-! DEFINITION. The control flow family (spec/41_control_flow.md). -/

namespace Sys2Proof.Machine

/-- R102: a reported no-op. -/
def execSys (nnn : Addr) (s : State) : Result := .next (s.emit (.sysReport s.pc (encode (.sys nnn)))).advance

/-- R103: nothing is added to the popped value. -/
def execRet (s : State) : Result := .next (s.pop.2.jump s.pop.1)

/-- R104. -/
def execJp (nnn : Addr) (s : State) : Result := .next (s.jump (zextAddr nnn))

/-- R105: pushes `npc`. -/
def execCall (nnn : Addr) (s : State) : Result := .next ((s.push s.npc).jump (zextAddr nnn))

/-- R106. -/
def execSeVxKk (x : Reg) (kk : Byte) (s : State) : Result := .next (s.skipIf (s.getV x == kk))

/-- R107. -/
def execSneVxKk (x : Reg) (kk : Byte) (s : State) : Result := .next (s.skipIf (s.getV x != kk))

/-- R108. -/
def execSeVxVy (x y : Reg) (s : State) : Result := .next (s.skipIf (s.getV x == s.getV y))

/-- R109. -/
def execSneVxVy (x y : Reg) (s : State) : Result := .next (s.skipIf (s.getV x != s.getV y))

/-- R110: not reduced to 12 bits (D5, log 12). -/
def execJpV0 (nnn : Addr) (s : State) : Result := .next (s.jump (offsetTarget nnn (s.getV 0)))

end Sys2Proof.Machine
end

