-- ==== Sys2Proof/Machine/Flags.lean ====
section
/-! DEFINITION. Every computation of a value for the flag register `VF`, always 0 or 1 (R12). -/

namespace Sys2Proof.Machine

/-- 1 if the condition holds, else 0. -/
def flagOf (condition : Bool) : Byte := if condition then 1 else 0

/-- ADD Vx,Vy: the carry, `a + b >= 256` (R88). -/
def carryFlag (a b : Byte) : Byte := flagOf (decide (256 ≤ a.toNat + b.toNat))

/-- SUB and SUBN: the strict comparison of the old values, `minuend > subtrahend`, not the borrow (R89, R91). -/
def greaterFlag (minuend subtrahend : Byte) : Byte := flagOf (decide (subtrahend.toNat < minuend.toNat))

/-- SHR: the bit shifted out, bit 0 (R90). -/
def lowBitFlag (a : Byte) : Byte := flagOf (a.getLsbD 0)

/-- SHL: the bit shifted out, bit 7 (R92). -/
def highBitFlag (a : Byte) : Byte := flagOf (a.getLsbD 7)

/-- DRW: the set-bit count of the touched bytes decreased (R143). -/
def collisionFlag (before after : Nat) : Byte := flagOf (decide (after < before))

/-- `popcount(b)`: the number of 1 bits (R3). -/
def popcount (b : Byte) : Nat := (List.range 8).countP (fun j => b.getLsbD j)

end Sys2Proof.Machine
end

