-- ==== Sys2Proof/Machine/Display.lean ====
section
/-! DEFINITION. The display family (spec/43_display.md): CLS, and DRW with its row blit (R142) and its
bit-count collision detector (R143). Clipping, layout and the scope of the count are the spec's decisions
D17 to D21 (log 18). -/

namespace Sys2Proof.Machine

/-- A draw in progress: the framebuffer, and the bit counts of the touched bytes before and after. -/
structure Blit where
  fb : Vector Byte 256
  before : Nat
  after : Nat
  deriving DecidableEq, Repr

/-- One touched byte: count, XOR, count (R144). -/
def Blit.touch (t : Blit) (k : Fin 256) (bits : Byte) : Blit where
  fb := t.fb.set k.val (t.fb[k.val] ^^^ bits)
  before := t.before + popcount t.fb[k.val]
  after := t.after + popcount (t.fb[k.val] ^^^ bits)

/-- One sprite row `r` at column `x0` of row `y` (R142): the left part, and the right part if the row is not
byte-aligned and the next byte is on the screen. -/
def Blit.drawRow (t : Blit) (x0 : Fin 64) (y : Fin 32) (r : Byte) : Blit :=
  let left := t.touch (fbIndex y (firstByte x0)) (leftPart r (x0.val % 8))
  if h : x0.val % 8 ≠ 0 ∧ (firstByte x0).val ≤ 6 then
    left.touch (fbIndex y ⟨(firstByte x0).val + 1, by omega⟩) (rightPart r (x0.val % 8))
  else left

/-- The sprite rows from row `y` of the screen down; rows past 31 are clipped (R142). -/
def Blit.drawRows (t : Blit) (x0 : Fin 64) (y : Nat) : List Byte → Blit
  | [] => t
  | r :: rest => Blit.drawRows (if h : y < 32 then t.drawRow x0 ⟨y, h⟩ r else t) x0 (y + 1) rest

/-- R140. -/
def execCls (s : State) : Result := .next { s with fb := Vector.replicate 256 0 }.advance

/-- The whole blit of DRW Vx,Vy,n: the rows read at `I`, drawn at the old `V[X]`, `V[Y]` (R141, R144). -/
def drawSprite (x y : Reg) (n : Fin 16) (s : State) : Blit :=
  Blit.drawRows { fb := s.fb, before := 0, after := 0 } (column (s.getV x)) (row (s.getV y)).val (s.memRead s.i n.val)

/-- R144. -/
def execDrw (x y : Reg) (n : Fin 16) (s : State) : Result :=
  let t := drawSprite x y n s
  .next ({ s with fb := t.fb }.setV Config.flagReg (collisionFlag t.before t.after)).advance

end Sys2Proof.Machine
end

