-- ==== Sys2Proof/Machine/IndexMemory.lean ====
section
/-! DEFINITION. The index register and memory family (spec/42_index_memory.md). No load or store changes `I`
(R126, D15, log 17). -/

namespace Sys2Proof.Machine

/-- R120. -/
def execLdINnn (nnn : Addr) (s : State) : Result := .next { s with i := zextAddr nnn }.advance

/-- R121: no flag, modulo 65536. -/
def execAddIVx (x : Reg) (s : State) : Result := .next { s with i := s.i + zextByte (s.getV x) }.advance

/-- R122. -/
def execLdFVx (x : Reg) (s : State) : Result := .next { s with i := glyphAddr (s.getV x) }.advance

/-- R123. -/
def execLdBVx (x : Reg) (s : State) : Result := storeAtI (.ldBVx x) (bcdDigits (s.getV x)) s

/-- R124: the `X` field is the bound, inclusive (C2, log 17). -/
def execLdMiVx (x : Reg) (s : State) : Result := storeAtI (.ldMiVx x) (s.regsUpTo x) s

/-- R125: a clamped read; registers without a byte keep their values (D16, log 17). -/
def execLdVxMi (x : Reg) (s : State) : Result :=
  .next { s with v := loadRegs s.v 0 (s.memRead s.i (x.val + 1)) }.advance

end Sys2Proof.Machine
end

