-- ==== Sys2Proof/Machine/KeyboardTimers.lean ====
section
/-! DEFINITION. The keyboard and timer family (spec/44_keyboard_timers.md). -/

namespace Sys2Proof.Machine

/-- R150. -/
def execSkp (x : Reg) (s : State) : Result := .next (s.skipIf (keyMatches s.key (s.getV x)))

/-- R151: the negated form. -/
def execSknp (x : Reg) (s : State) : Result := .next (s.skipIf (!keyMatches s.key (s.getV x)))

/-- R152: the key is read, not consumed. R153: with no key the core is held, which here is a step that changes
nothing (log 5). -/
def execLdVxK (x : Reg) (s : State) : Result :=
  match s.key with
  | none => .next s
  | some k => .next (s.setV x (zextKey k)).advance

/-- R154. -/
def execLdVxDt (x : Reg) (s : State) : Result := .next (s.setV x s.dt).advance

/-- R155. -/
def execLdDtVx (x : Reg) (s : State) : Result := .next { s with dt := s.getV x }.advance

/-- R156. -/
def execLdStVx (x : Reg) (s : State) : Result := .next { s with st := s.getV x }.advance

end Sys2Proof.Machine
end

