-- ==== Sys2Proof/Machine/RegisterAlu.lean ====
section
/-! DEFINITION. The register and ALU family (spec/40_register_alu.md). Operands are read from the state before
the step, the result is written, then the flag (R80); every instruction ends with `PC <- npc`. -/

namespace Sys2Proof.Machine

/-- R82. -/
def execLdVxKk (x : Reg) (kk : Byte) (s : State) : Result := .next (s.setV x kk).advance

/-- R83: no flag. -/
def execAddVxKk (x : Reg) (kk : Byte) (s : State) : Result := .next (s.setV x (s.getV x + kk)).advance

/-- R84. -/
def execLdVxVy (x y : Reg) (s : State) : Result := .next (s.setV x (s.getV y)).advance

/-- R85: `VF` is not written (D8, log 15). -/
def execOr (x y : Reg) (s : State) : Result := .next (s.setV x (s.getV x ||| s.getV y)).advance

/-- R86: `VF` is not written (D8, log 15). -/
def execAnd (x y : Reg) (s : State) : Result := .next (s.setV x (s.getV x &&& s.getV y)).advance

/-- R87: `VF` is not written (D8, log 15). -/
def execXor (x y : Reg) (s : State) : Result := .next (s.setV x (s.getV x ^^^ s.getV y)).advance

/-- R88. -/
def execAddVxVy (x y : Reg) (s : State) : Result :=
  .next (s.setResultAndFlag x (s.getV x + s.getV y) (carryFlag (s.getV x) (s.getV y))).advance

/-- R89. -/
def execSub (x y : Reg) (s : State) : Result :=
  .next (s.setResultAndFlag x (s.getV x - s.getV y) (greaterFlag (s.getV x) (s.getV y))).advance

/-- R90: the `Y` field plays no part (D7, log 14). -/
def execShr (x : Reg) (s : State) : Result :=
  .next (s.setResultAndFlag x (s.getV x >>> 1) (lowBitFlag (s.getV x))).advance

/-- R91. -/
def execSubn (x y : Reg) (s : State) : Result :=
  .next (s.setResultAndFlag x (s.getV y - s.getV x) (greaterFlag (s.getV y) (s.getV x))).advance

/-- R92: the `Y` field plays no part (D7, log 14). -/
def execShl (x : Reg) (s : State) : Result :=
  .next (s.setResultAndFlag x (s.getV x <<< 1) (highBitFlag (s.getV x))).advance

/-- R93: the draw is a free value (log 2). -/
def execRnd (x : Reg) (kk : Byte) (s : State) : Result := .next (s.rndTaken.setV x (kk &&& s.rndNext)).advance

end Sys2Proof.Machine
end

