-- ==== Sys2Proof/Machine/Environment.lean ====
section
/-! DEFINITION. The environment operations (spec/45_environment_ops.md rules R170 to R175). They act between
core steps only (R178). -/

namespace Sys2Proof.Machine

/-- `reset` (R170, R220): the block's state takes its reset values; the environment goes on (log 11). -/
def State.resetBlock (s : State) : State := { State.reset with env := s.env }

/-- `key_set(k)` (R172). -/
def State.keySet (s : State) (k : Nibble) : State := { s with key := some k }

/-- `key_clear` (R173). -/
def State.keyClear (s : State) : State := { s with key := none }

/-- One timer's tick: a timer at zero stays at zero (R174, D24, log 19). -/
def tick (t : Byte) : Byte := if t = 0 then 0 else t - 1

/-- `timer_tick` (R174). -/
def State.timerTick (s : State) : State := { s with dt := tick s.dt, st := tick s.st }

/-- `load_program(bytes)` (R171): `MemWrite(0x200, bytes)`, or the launch is refused (log 10). -/
def State.loadProgram (s : State) (bytes : List Byte) : Result :=
  match s.memWrite Config.progStart bytes with
  | some t => .next t
  | none => .refused (.launchRefused bytes.length)

/-- `fb_read` (R175): hands out the 256 bytes and changes nothing in the block (log 4). -/
def State.fbRead (s : State) : State := s.emit (.frame s.fb)

end Sys2Proof.Machine
end

