-- ==== Sys2Proof/Machine/Execute.lean ====
section
/-! DEFINITION. One step of the core (spec/30_encoding.md R61, spec/45_environment_ops.md R177), one event of a
run (R178), and the placing of a word where the core fetches. -/

namespace Sys2Proof.Machine

/-- The bytes of the fetch: `MemRead(PC, 2)` (R61). -/
def State.fetch (s : State) : List Byte := s.memRead s.pc 2

/-- Fetch, decode, execute; the faults in the order of R197. -/
def stepCore (s : State) : Result :=
  match decode s.fetch with
  | .ok (i, _) => exec i s
  | .error (.short raw) => .fault (.fetchFault s.pc raw)
  | .error (.illegal w _) => .fault (.illegalInstruction s.pc w)

/-- What an event does (R170 to R178). -/
def perform (e : Event) (s : State) : Result :=
  match e with
  | .step => stepCore s
  | .reset => .next s.resetBlock
  | .loadProgram bytes => s.loadProgram bytes
  | .keySet k => .next (s.keySet k)
  | .keyClear => .next s.keyClear
  | .timerTick => .next s.timerTick
  | .fbRead => .next s.fbRead

/-- The event that comes next: the first of the schedule, or else the driver's `step` (log 3). -/
def State.nextEvent (s : State) : Event := s.env.schedule.headD .step

/-- The state with that event taken off the schedule. -/
def State.eventTaken (s : State) : State := { s with env := { s.env with schedule := s.env.schedule.tail } }

/-- A word's two bytes stored where the core fetches, high byte first (R44, R61), and no event before the
step. At `PC mod 4096 = 4095` no word can be fetched and only the first byte lands in memory (log 21). -/
def State.placeWord (s : State) (w : Word) : State :=
  { s with
    mem := if startAddr s.pc = 4095 then s.mem.write 4095 (bytesOfWord w).1
           else s.mem.writeRun (startAddr s.pc) [(bytesOfWord w).1, (bytesOfWord w).2]
    env := { s.env with schedule := [] } }

end Sys2Proof.Machine
end

