-- ==== Sys2Proof/Machine/Step.lean ====
section
/-! DEFINITION. One step of the machine: the next event of the run (spec/45_environment_ops.md R178). With an
empty schedule it is one `step` of the core (R177). -/

namespace Sys2Proof.Machine

def step (s : State) : Host.Outcome State Fault Refusal := perform s.nextEvent s.eventTaken

/-- `s` with the instruction whose table bits are `w` placed where `step` fetches next, and the schedule empty,
so that the very next step runs it (log 21). -/
def State.withFetchWord (s : State) (nbits w : Nat) : State := s.placeWord (BitVec.ofNat 16 (w % 2 ^ nbits))

end Sys2Proof.Machine
end

