-- ==== Sys2Proof/Safety.lean ====
section
/-! DEFINITION. The terms claims are stated in: frames, the invariant, the tables of the spec that speak about
all instructions, what a sprite covers, and which runs are safe. -/

namespace Sys2Proof.Machine

/-! ### Frames -/

/-- The parts of the state other than `PC`, for saying what an instruction leaves alone. -/
inductive Part where
  | memory
  | registers
  | delayTimer
  | soundTimer
  | index
  | stack
  | display
  | key
  | environment
  deriving DecidableEq, Repr

/-- A part is unchanged from `s` to `t`: every byte of memory reads as before, every register, and so on.
`.stack` is the sixteen cells and the cursor. -/
def Part.same (s t : State) : Part → Prop
  | .memory => ∀ a : Nat, t.mem.read a = s.mem.read a
  | .registers => ∀ r : Reg, t.getV r = s.getV r
  | .delayTimer => t.dt = s.dt
  | .soundTimer => t.st = s.st
  | .index => t.i = s.i
  | .stack => (∀ j : Nibble, t.stackCell j = s.stackCell j) ∧ t.sp = s.sp
  | .display => ∀ k : Fin 256, t.fb[k.val] = s.fb[k.val]
  | .key => t.key = s.key
  | .environment => t.env = s.env

/-- Every part but those listed is unchanged. `PC` is not a part: each statement says what it becomes. -/
def changesOnly (s t : State) (parts : List Part) : Prop := ∀ p : Part, p ∉ parts → p.same s t

/-- Every register but those listed is unchanged. -/
def keepsRegsBut (s t : State) (regs : List Reg) : Prop := ∀ r : Reg, r ∉ regs → t.getV r = s.getV r

/-- Every byte of memory outside the `n` bytes at `a` reads as before. -/
def keepsMemoryOutside (s t : State) (a n : Nat) : Prop :=
  ∀ k : Nat, k < a ∨ a + n ≤ k → t.mem.read k = s.mem.read k

/-! ### The encoding, said with numbers -/

/-- The instruction's word is `n`, and that word decodes to it. -/
def hasWord (i : Instr) (n : Nat) : Prop := (encode i).toNat = n ∧ decodeWord (encode i) = .ok i

/-- The illegal words of R71, family by family. -/
def illegalWord (w : Word) : Prop :=
  (w.toNat / 0x1000 = 0x5 ∧ w.toNat % 0x10 ≠ 0) ∨
  (w.toNat / 0x1000 = 0x8 ∧ w.toNat % 0x10 ∈ [0x8, 0x9, 0xA, 0xB, 0xC, 0xD, 0xF]) ∨
  (w.toNat / 0x1000 = 0x9 ∧ w.toNat % 0x10 ≠ 0) ∨
  (w.toNat / 0x1000 = 0xE ∧ w.toNat % 0x100 ∉ [0x9E, 0xA1]) ∨
  (w.toNat / 0x1000 = 0xF ∧ w.toNat % 0x100 ∉ [0x07, 0x0A, 0x15, 0x18, 0x1E, 0x29, 0x33, 0x55, 0x65])

/-- The word at the fetch address, where two bytes can be read (R61). -/
def State.wordAtPc (s : State) : Word :=
  wordOfBytes (s.mem.read (s.pc.toNat % 4096)) (s.mem.read (s.pc.toNat % 4096 + 1))

/-! ### The tables about all instructions -/

/-- The net effect on `PC` (the table of R16). -/
def pcAfter (i : Instr) (s : State) : Word :=
  match i with
  | .jp nnn => BitVec.ofNat 16 nnn.toNat
  | .call nnn => BitVec.ofNat 16 nnn.toNat
  | .jpV0 nnn => BitVec.ofNat 16 (nnn.toNat + (s.getV 0).toNat)
  | .ret => s.stackCell (s.sp - 1)
  | .seVxKk x kk => if s.getV x = kk then s.pc + 4 else s.pc + 2
  | .sneVxKk x kk => if s.getV x = kk then s.pc + 2 else s.pc + 4
  | .seVxVy x y => if s.getV x = s.getV y then s.pc + 4 else s.pc + 2
  | .sneVxVy x y => if s.getV x = s.getV y then s.pc + 2 else s.pc + 4
  | .skp x => if ∃ k, s.key = some k ∧ k.toNat = (s.getV x).toNat then s.pc + 4 else s.pc + 2
  | .sknp x => if ∃ k, s.key = some k ∧ k.toNat = (s.getV x).toNat then s.pc + 2 else s.pc + 4
  | .ldVxK _ => if s.key = none then s.pc else s.pc + 2
  | _ => s.pc + 2

/-- The instructions that write `VF` as a side effect (R12). -/
def writesFlag : Instr → Bool
  | .addVxVy _ _ | .sub _ _ | .subn _ _ | .shr _ | .shl _ | .drw _ _ _ => true
  | _ => false

/-- Whether `r` is a register the instruction names as a destination (rules R82 to R93, R125, R152, R154). -/
def isDestination (i : Instr) (r : Reg) : Prop :=
  match i with
  | .ldVxKk x _ | .addVxKk x _ | .rnd x _ => r = x
  | .ldVxVy x _ | .or x _ | .and x _ | .xor x _ | .addVxVy x _ | .sub x _ | .subn x _ => r = x
  | .shr x | .shl x | .ldVxDt x | .ldVxK x => r = x
  | .ldVxMi x => r ≤ x
  | _ => False

/-- The parts an instruction may write (R12, R13, R14, R18, R19, R21, R40, R55; SYS and RND act on the
environment's side). -/
def mayWrite : Instr → List Part
  | .cls => [.display]
  | .drw _ _ _ => [.display, .registers]
  | .ret => [.stack]
  | .call _ => [.stack]
  | .sys _ => [.environment]
  | .jp _ | .jpV0 _ | .seVxKk _ _ | .sneVxKk _ _ | .seVxVy _ _ | .sneVxVy _ _ | .skp _ | .sknp _ => []
  | .ldVxKk _ _ | .addVxKk _ _ | .ldVxVy _ _ | .or _ _ | .and _ _ | .xor _ _ => [.registers]
  | .addVxVy _ _ | .sub _ _ | .subn _ _ | .shr _ | .shl _ => [.registers]
  | .rnd _ _ => [.registers, .environment]
  | .ldINnn _ | .addIVx _ | .ldFVx _ => [.index]
  | .ldVxDt _ | .ldVxK _ | .ldVxMi _ => [.registers]
  | .ldDtVx _ => [.delayTimer]
  | .ldStVx _ => [.soundTimer]
  | .ldBVx _ | .ldMiVx _ => [.memory]

/-- The parts an environment operation may write (R170 to R175, R196). `reset` may write every part of the block; `step`
is the instruction's matter, `mayWrite`. A framebuffer read adds to the outputs (log 4). -/
def eventMayWrite : Event → List Part
  | .loadProgram _ => [.memory]
  | .keySet _ | .keyClear => [.key]
  | .timerTick => [.delayTimer, .soundTimer]
  | .fbRead => [.environment]
  | .step | .reset => [.memory, .registers, .delayTimer, .soundTimer, .index, .stack, .display, .key, .environment]

/-- How many bytes an instruction stores at `I`, for the two that store (R46). -/
def storeLength : Instr → Nat
  | .ldBVx _ => 3
  | .ldMiVx x => x.val + 1
  | _ => 0

/-- The store of the instruction does not overrun (R193); true of every instruction that stores nothing. -/
def storeFits (i : Instr) (s : State) : Prop := s.i.toNat % 4096 + storeLength i ≤ 4096

/-! ### Drawing, pixel by pixel and byte by byte -/

/-- How many sprite rows DRW reads for the height `n` (R42, R144). -/
def rowsRead (s : State) (n : Fin 16) : Nat := min n.val (4096 - s.i.toNat % 4096)

/-- The sprite read at `I` and drawn from column `x0` and row `y0` sets a bit at pixel `(px, py)`: the most
significant bit of a row is its leftmost pixel, and nothing wraps (R142). -/
def spriteBit (s : State) (x0 y0 : Nat) (n : Fin 16) (px : Fin 64) (py : Fin 32) : Bool :=
  decide (x0 ≤ px.val ∧ px.val < x0 + 8 ∧ y0 ≤ py.val ∧ py.val < y0 + rowsRead s n) &&
    (s.mem.read (s.i.toNat % 4096 + (py.val - y0))).getLsbD (7 - (px.val - x0))

/-- The bytes that `rows` sprite rows at column `x0`, row `y0` touch (R142, R143). -/
def touchedBytes (x0 y0 rows : Nat) : List Nat :=
  (List.range rows).flatMap fun r =>
    if y0 + r < 32 then
      (if x0 % 8 ≠ 0 ∧ x0 / 8 ≤ 6 then [(y0 + r) * 8 + x0 / 8, (y0 + r) * 8 + x0 / 8 + 1]
       else [(y0 + r) * 8 + x0 / 8])
    else []

/-- The number of 1 bits in the listed bytes of a framebuffer (R143). -/
def bitCount (fb : Vector Byte 256) (bytes : List Nat) : Nat :=
  (bytes.map fun k => popcount (fb.toList.getD k 0)).sum

/-! ### Runs -/

/-- The invariant: memory is in canonical form. Every other bound of the state is in its types. -/
def State.Inv (s : State) : Prop := s.mem.wf = true

/-- A program is finished (R180, D41; log 22): `PC` is below 4096 and addresses a JP to its own address. -/
def State.finished (s : State) : Prop :=
  s.pc.toNat < 4095 ∧ s.wordAtPc.toNat = 0x1000 + s.pc.toNat

/-- The core is held (R153): `PC` addresses an LD Vx,K word and no key is set. -/
def State.held (s : State) : Prop :=
  s.key = none ∧ s.pc.toNat % 4096 ≠ 4095 ∧ ∃ x, decodeWord s.wordAtPc = .ok (.ldVxK x)

/-- A run of `k` steps that meets no fault and no refusal: a safe run. A faulted run is never finished (R199). -/
def SafeRun (k : Nat) (s t : State) : Prop := Sys2Proof.core.run k s = .next t

end Sys2Proof.Machine
end

