-- ==== Sys2Proof/Certificates/Slice0/Obligations.lean ====
section
/-! DEFINITION. The statements for the provers. Each docstring names the rule of spec/ it formalises, or the
decision of the spec (D<n>) and the log entry it rests on. -/

open Sys2Proof Sys2Proof.Machine

/-! ### Decoder and encoder (30_encoding.md) -/

/-- A word for each of the 35 rows of the map of 30_encoding.md section 3, written out from its pattern (among them
the decoder vectors of 95_test_vectors.md 2.6), decodes to the instruction it stands for, and one illegal word of each
strict family is refused (decision D9, log 16). The opcode numbers are the spec's from general knowledge (D1, log 1). -/
def Obligations.SpecWordsDecodeAsTheTableSays : Prop :=
  (∀ p ∈
    [((0x00E0 : Word), Instr.cls), (0x00EE, .ret), (0x00E1, .sys 0x0E1), (0x1234, .jp 0x234), (0x230C, .call 0x30C),
      (0x3A07, .seVxKk 0xA 0x07), (0x4A07, .sneVxKk 0xA 0x07), (0x5120, .seVxVy 1 2), (0x6A2C, .ldVxKk 0xA 0x2C),
      (0x7305, .addVxKk 3 0x05)] ++
    [((0x8120 : Word), Instr.ldVxVy 1 2), (0x8121, .or 1 2), (0x8122, .and 1 2), (0x8123, .xor 1 2),
      (0x8014, .addVxVy 0 1), (0x8015, .sub 0 1), (0x80B6, .shr 0), (0x8AB7, .subn 0xA 0xB), (0x810E, .shl 1),
      (0x9120, .sneVxVy 1 2)] ++
    [((0xA2F0 : Word), Instr.ldINnn 0x2F0), (0xB300, .jpV0 0x300), (0xC30F, .rnd 3 0x0F), (0xD345, .drw 3 4 5),
      (0xE39E, .skp 3), (0xEFA1, .sknp 0xF)] ++
    [((0xF107 : Word), Instr.ldVxDt 1), (0xF50A, .ldVxK 5), (0xF015, .ldDtVx 0), (0xF218, .ldStVx 2),
      (0xF21E, .addIVx 2), (0xF329, .ldFVx 3), (0xF433, .ldBVx 4), (0xF255, .ldMiVx 2), (0xF065, .ldVxMi 0)],
    decodeWord p.1 = .ok p.2) ∧
  decodeWord 0x5121 = .error .family5 ∧ decodeWord 0x8AB8 = .error .family8 ∧ decodeWord 0x9121 = .error .family9 ∧
  decodeWord 0xE39F = .error .familyE ∧ decodeWord 0xF0FF = .error .familyF

/-- Decoding the word of a well-formed instruction gives the instruction back, every operand at every value
(R62, R63, R74, R76; numbers D1, log 1). -/
def Obligations.DecodingAnEncodedInstructionGivesItBack : Prop :=
  ∀ i : Instr, i.wf = true → decodeWord (encode i) = .ok i

/-- Every legal word is the word of the instruction it decodes to, but for the ignored `Y` field of SHR and SHL,
which the encoder leaves 0 (R74, R77, D7, log 14); so decoding drops no other bit (R76). -/
def Obligations.EncodingADecodedWordGivesItBack : Prop :=
  ∀ (w : Word) (i : Instr), decodeWord w = .ok i →
    i.wf = true ∧
    (encode i).toNat =
      match i with
      | .shr _ | .shl _ => w.toNat / 0x100 * 0x100 + w.toNat % 0x10
      | _ => w.toNat

/-- A word is illegal exactly when R71 lists it (the set is the spec's decision D9, log 16). -/
def Obligations.IllegalWordsAreTheOnesOfTheTable : Prop :=
  ∀ w : Word, (∃ why, decodeWord w = .error why) ↔ illegalWord w

/-! ### Fetch, step and faults (R61, R177, R190 to R198) -/

/-- R61, R177: in every state with two bytes to read, the step of the core runs the instruction that the big-endian word
at `PC mod 4096` decodes to, on the state before the step, and nothing is added around it. So does every step of the
machine whose next event is `step`: with events left they are kept, and with the empty schedule the state is as it was
(the schedule is the model's, log 3). -/
def Obligations.StepRunsTheDecodedInstruction : Prop :=
  ∀ (s : State) (i : Instr), s.pc.toNat % 4096 ≠ 4095 → decodeWord s.wordAtPc = .ok i →
    stepCore s = exec i s ∧
    (s.env.schedule = [] → step s = exec i s) ∧
    (∀ rest, s.env.schedule = .step :: rest → step s = exec i { s with env := { s.env with schedule := rest } })

/-- R178: with a schedule, one step of the machine performs its first event and takes it off, whatever the event;
`.step` is one step of the core; and with no event left the driver's own step is next (log 3). What `reset` does to the
environment's side is the model's (log 11). -/
def Obligations.StepPerformsTheFirstScheduledEvent : Prop :=
  ∀ (s : State) (rest : List Event),
    let rested (e : Event) : State := { s with env := { s.env with schedule := e :: rest } }
    let left : State := { s with env := { s.env with schedule := rest } }
    (∀ e, step (rested e) = perform e left) ∧
    step (rested .step) = stepCore left ∧
    (∀ k, step (rested (.keySet k)) = .next { left with key := some k }) ∧
    step (rested .keyClear) = .next { left with key := none } ∧
    step (rested .reset) = .next { State.reset with env := left.env } ∧
    (s.env.schedule = [] → step s = stepCore s)

/-- R191: a step of the core, with events left or none, faults in its fetch exactly when `PC mod 4096 = 4095`, with `PC`
and the one byte read; no other event raises the fault (names and recorded values are decision D12, the condition D11,
logs 6 and 16; the schedule is log 3). -/
def Obligations.FetchFaultsExactlyAtTheLastByte : Prop :=
  ∀ s : State,
    (s.nextEvent = .step → s.pc.toNat % 4096 = 4095 → step s = .fault (.fetchFault s.pc [s.mem.read 4095])) ∧
    (∀ addr raw, step s = .fault (.fetchFault addr raw) → s.nextEvent = .step ∧ s.pc.toNat % 4096 = 4095)

/-- R192: a step of the core, with events left or none, that fetches an illegal word raises IllegalInstruction with `PC`
and the word; no other step and no other event raises it (the set is decision D9, log 16; the recorded values are D12,
log 6; the schedule is log 3). -/
def Obligations.IllegalWordsFaultWithTheirAddress : Prop :=
  ∀ s : State,
    (s.nextEvent = .step → s.pc.toNat % 4096 ≠ 4095 → illegalWord s.wordAtPc →
      step s = .fault (.illegalInstruction s.pc s.wordAtPc)) ∧
    (∀ addr raw, step s = .fault (.illegalInstruction addr raw) →
      s.nextEvent = .step ∧ s.pc.toNat % 4096 ≠ 4095 ∧ illegalWord s.wordAtPc)

/-- R190, R197, R198: a step that faults does so for one of the three causes and no other, with the code, address
and raw bytes of that cause. Names, codes and recorded values are decision D12 (log 6); that 4095 is the only unreadable
fetch is D11 and the illegal set D9 (log 16); that LD [I],Vx stores `X + 1` bytes is D14 (log 17). -/
def Obligations.EveryFaultHasOneOfThreeCauses : Prop :=
  ∀ (s : State) (f : Fault), step s = .fault f →
    s.nextEvent = .step ∧ f.addr = s.pc ∧
    ((f.code = 1 ∧ s.pc.toNat % 4096 = 4095 ∧ f.raw = [s.mem.read 4095]) ∨
     (s.pc.toNat % 4096 ≠ 4095 ∧
      f.raw = [s.mem.read (s.pc.toNat % 4096), s.mem.read (s.pc.toNat % 4096 + 1)] ∧
      ((f.code = 2 ∧ illegalWord s.wordAtPc) ∨
       (f.code = 3 ∧ ∃ i, decodeWord s.wordAtPc = .ok i ∧ 0 < storeLength i ∧ ¬ storeFits i s))))

/-- R71, R171, R190: the core never refuses; the one refusal is a program image longer than 3584 bytes (the
refused launch is decision D30, log 10). -/
def Obligations.OnlyAnOverlongImageIsRefused : Prop :=
  ∀ (s : State) (r : Refusal), step s = .refused r →
    ∃ bytes : List Byte, s.nextEvent = .loadProgram bytes ∧ 3584 < bytes.length ∧ r = .launchRefused bytes.length

/-- Every instruction completes in every state, but for a store that would overrun (R190, R193; that the range ends at
`V[X]` is decision D14, log 17). With no key,
completing is the held step of LD Vx,K (R153, log 5); KeyLoadHoldsUntilAKeyIsSet says where it takes the key. -/
def Obligations.EveryInstructionCompletesUnlessItsStoreOverruns : Prop :=
  ∀ (i : Instr) (s : State), (∃ t, exec i s = .next t) ↔ storeFits i s

/-! ### Reset and invariants (R24, R220) -/

/-- The state after reset (R24, R220). The zeros of V, DT, ST, I, SP and STACK are decision D22 (log 8); the
eighty glyph bytes are the table of R25, which is general knowledge, decision D23 (log 7). -/
def Obligations.ResetLeavesTheStateOfTheTable : Prop :=
  State.reset.pc = 0x200 ∧ State.reset.key = none ∧ (∀ k : Fin 256, State.reset.fb[k.val] = 0) ∧
  (∀ a, 80 ≤ a → State.reset.mem.read a = 0) ∧
  (∀ r, State.reset.getV r = 0) ∧ State.reset.dt = 0 ∧ State.reset.st = 0 ∧ State.reset.i = 0 ∧
  State.reset.sp = 0 ∧ (∀ j, State.reset.stackCell j = 0) ∧
  (List.range 80).map State.reset.mem.read =
    [0xF0, 0x90, 0x90, 0x90, 0xF0] ++ [0x20, 0x60, 0x20, 0x20, 0x70] ++ [0xF0, 0x10, 0xF0, 0x80, 0xF0] ++
    [0xF0, 0x10, 0xF0, 0x10, 0xF0] ++ [0x90, 0x90, 0xF0, 0x10, 0x10] ++ [0xF0, 0x80, 0xF0, 0x10, 0xF0] ++
    [0xF0, 0x80, 0xF0, 0x90, 0xF0] ++ [0xF0, 0x10, 0x20, 0x40, 0x40] ++ [0xF0, 0x90, 0xF0, 0x90, 0xF0] ++
    [0xF0, 0x90, 0xF0, 0x10, 0xF0] ++ [0xF0, 0x90, 0xF0, 0x90, 0x90] ++ [0xE0, 0x90, 0xE0, 0x90, 0xE0] ++
    [0xF0, 0x80, 0x80, 0x80, 0xF0] ++ [0xE0, 0x90, 0x90, 0x90, 0xE0] ++ [0xF0, 0x80, 0xF0, 0x80, 0xF0] ++
    [0xF0, 0x80, 0xF0, 0x80, 0x80]

/-- The invariant holds at reset. -/
def Obligations.ResetMeetsTheMemoryForm : Prop := State.reset.Inv

/-- Every step, of the core or of the environment, keeps memory in canonical form: 4096 cells, each listed at most
once, in order, and only if it differs from its reset contents (R22, R43; log 26). -/
def Obligations.EveryStepKeepsTheMemoryForm : Prop :=
  ∀ s t : State, s.Inv → step s = .next t → t.Inv

/-- The canonical form names each memory once: two memories in it whose 4096 cells read alike are the same list (log
26). -/
def Obligations.MemoriesThatReadAlikeAreEqual : Prop :=
  ∀ m m' : Memory, m.wf = true → m'.wf = true → (∀ a, a < 4096 → m.read a = m'.read a) → m = m'

/-- R180: once finished, every step of the core leaves the whole state unchanged, with events left or none (the convention
is decision D41, log 22; the schedule is log 3). -/
def Obligations.AFinishedProgramNeverChanges : Prop :=
  ∀ s : State, s.finished →
    stepCore s = .next s ∧ (s.env.schedule = [] → step s = .next s) ∧ (s.nextEvent = .step → step s = .next s.eventTaken)

/-- R153: while held, every step of the core leaves the whole state unchanged, with events left or none, and a key lets it
through with that key's code in the register (the hold is decision D26, logs 5 and 19; the schedule is log 3). -/
def Obligations.AHeldCoreWaitsForAKey : Prop :=
  ∀ s : State, s.held →
    stepCore s = .next s ∧ (s.env.schedule = [] → step s = .next s) ∧
    (s.nextEvent = .step → step s = .next s.eventTaken) ∧
    ∀ k : Nibble, ∃ (x : Reg) (t : State), decodeWord s.wordAtPc = .ok (.ldVxK x) ∧
      stepCore (s.keySet k) = .next t ∧ (s.env.schedule = [] → step (s.keySet k) = .next t) ∧
      (t.getV x).toNat = k.toNat ∧ t.pc = s.pc + 2 ∧ t.key = some k

/-! ### Memory and stack primitives (R42, R43, R53, R100, R101) -/

/-- R42: `MemRead` gives the bytes from `addr mod 4096` up, at most `n`, clamped at the end of memory; at least one
if `n` is, none if `n` is 0. -/
def Obligations.MemReadIsClampedAtTheEnd : Prop :=
  ∀ (s : State) (addr : Word) (n : Nat),
    (s.memRead addr n).length = min n (4096 - addr.toNat % 4096) ∧
    (∀ j, j < min n (4096 - addr.toNat % 4096) →
      (s.memRead addr n)[j]? = some (s.mem.read (addr.toNat % 4096 + j))) ∧
    (addr.toNat % 4096 + n ≤ 4096 → (s.memRead addr n).length = n) ∧
    (4096 < addr.toNat % 4096 + n → (s.memRead addr n).length < n) ∧
    (1 ≤ n → 1 ≤ (s.memRead addr n).length) ∧ s.memRead addr 0 = []

/-- R43, R193: `MemWrite` writes every byte or, when the bytes would pass the end of memory, none, and then the store
raises MemWriteOverrun. Nothing but the named bytes changes. The values the fault records, `PC` and the word, are decision
D12 (log 6); the word is the encoder's, which the model deduces to be the fetched one (log 24). -/
def Obligations.MemWriteWritesAllOrNothing : Prop :=
  ∀ (s : State) (addr : Word) (bytes : List Byte),
    (4096 < addr.toNat % 4096 + bytes.length →
      s.memWrite addr bytes = none ∧
      (s.i = addr → ∀ i, storeAtI i bytes s = .fault (.memWriteOverrun s.pc (encode i)))) ∧
    (addr.toNat % 4096 + bytes.length ≤ 4096 →
      ∃ t, s.memWrite addr bytes = some t ∧
        (∀ j b, bytes[j]? = some b → t.mem.read (addr.toNat % 4096 + j) = b) ∧
        keepsMemoryOutside s t (addr.toNat % 4096) bytes.length ∧
        changesOnly s t [.memory] ∧ t.pc = s.pc)

/-- R53: the fetch after a store that completes, LD [I],Vx or LD B,Vx, reads the bytes just stored wherever they cover the
next instruction, all of it or one byte, and the old bytes elsewhere (D39, log 25; the range's bound is D14, log 17). -/
def Obligations.AStoreIsSeenByTheNextFetch : Prop :=
  ∀ (x : Reg) (s : State),
    let a := s.i.toNat % 4096
    let p := (s.pc.toNat + 2) % 4096
    (storeFits (.ldMiVx x) s →
      ∃ t, exec (.ldMiVx x) s = .next t ∧ t.fetch.length = min 2 (4096 - p) ∧
        ∀ j, j < 2 → p + j < 4096 →
          (∀ r : Reg, r ≤ x → p + j = a + r.val → t.fetch[j]? = some (s.getV r)) ∧
          (p + j < a ∨ a + (x.val + 1) ≤ p + j → t.fetch[j]? = some (s.mem.read (p + j)))) ∧
    (storeFits (.ldBVx x) s →
      ∃ t, exec (.ldBVx x) s = .next t ∧ t.fetch.length = min 2 (4096 - p) ∧
        ∀ j, j < 2 → p + j < 4096 →
          (p + j = a → t.fetch[j]? = some (BitVec.ofNat 8 ((s.getV x).toNat / 100))) ∧
          (p + j = a + 1 → t.fetch[j]? = some (BitVec.ofNat 8 ((s.getV x).toNat / 10 % 10))) ∧
          (p + j = a + 2 → t.fetch[j]? = some (BitVec.ofNat 8 ((s.getV x).toNat % 10))) ∧
          (p + j < a ∨ a + 3 ≤ p + j → t.fetch[j]? = some (s.mem.read (p + j))))

/-- R100: a push stores at the cursor and advances it modulo 16, and raises nothing; sixteen pushes bring the cursor
back, so the seventeenth overwrites the oldest entry. -/
def Obligations.PushStoresAtTheCursorAndWraps : Prop :=
  ∀ (s : State) (addr : Word),
    (s.push addr).stackCell s.sp = addr ∧
    (∀ j, j ≠ s.sp → (s.push addr).stackCell j = s.stackCell j) ∧
    (s.push addr).sp.toNat = (s.sp.toNat + 1) % 16 ∧
    changesOnly s (s.push addr) [.stack] ∧ (s.push addr).pc = s.pc ∧
    (∀ first : Word, ∀ others : List Word, others.length = 15 →
      (others.foldl State.push (s.push first)).stackCell s.sp = first ∧
      ((others.foldl State.push (s.push first)).push addr).stackCell s.sp = addr)

/-- R101: a pop moves the cursor back modulo 16 and gives the cell it then names, which keeps its value. -/
def Obligations.PopGivesTheCellBelowTheCursor : Prop :=
  ∀ s : State,
    s.pop.2.sp.toNat = (s.sp.toNat + 15) % 16 ∧ s.pop.1 = s.stackCell s.pop.2.sp ∧
    (∀ j, s.pop.2.stackCell j = s.stackCell j) ∧ changesOnly s s.pop.2 [.stack] ∧ s.pop.2.pc = s.pc

/-! ### Register and ALU family (40_register_alu.md) -/

/-- R82, R84: a load of an immediate and a copy write one register, `VF` like any other. That the two instructions
exist is general knowledge (G4, log 1). -/
def Obligations.LoadAndCopyWriteOneRegister : Prop :=
  ∀ (x y : Reg) (kk : Byte) (s : State),
    (∃ t, exec (.ldVxKk x kk) s = .next t ∧ t.getV x = kk ∧ keepsRegsBut s t [x] ∧ t.pc = s.pc + 2 ∧
      changesOnly s t [.registers]) ∧
    (∃ t, exec (.ldVxVy x y) s = .next t ∧ t.getV x = s.getV y ∧ keepsRegsBut s t [x] ∧ t.pc = s.pc + 2 ∧
      changesOnly s t [.registers])

/-- R83: ADD Vx,kk adds modulo 256 and sets no flag: `VF` changes only as the destination.
The number of the word is the spec's from general knowledge (D1, log 1). -/
def Obligations.AddImmediateWrapsWithoutFlag : Prop :=
  ∀ (x : Reg) (kk : Byte) (s : State),
    hasWord (.addVxKk x kk) (0x7000 + 0x100 * x.val + kk.toNat) ∧
    ∃ t, exec (.addVxKk x kk) s = .next t ∧
      (t.getV x).toNat = ((s.getV x).toNat + kk.toNat) % 256 ∧
      keepsRegsBut s t [x] ∧ (x ≠ 15 → t.vf = s.vf) ∧ t.pc = s.pc + 2 ∧ changesOnly s t [.registers]

/-- R85 to R87: the logic instructions work bit by bit in place and leave every other register, `VF` among them
(decision D8, log 15). -/
def Obligations.LogicInstructionsWorkBitByBit : Prop :=
  ∀ (x y : Reg) (s : State),
    (∃ t, exec (.or x y) s = .next t ∧
      (∀ j, (t.getV x).getLsbD j = ((s.getV x).getLsbD j || (s.getV y).getLsbD j)) ∧
      keepsRegsBut s t [x] ∧ t.pc = s.pc + 2 ∧ changesOnly s t [.registers]) ∧
    (∃ t, exec (.and x y) s = .next t ∧
      (∀ j, (t.getV x).getLsbD j = ((s.getV x).getLsbD j && (s.getV y).getLsbD j)) ∧
      keepsRegsBut s t [x] ∧ t.pc = s.pc + 2 ∧ changesOnly s t [.registers]) ∧
    (∃ t, exec (.xor x y) s = .next t ∧
      (∀ j, (t.getV x).getLsbD j = ((s.getV x).getLsbD j ^^ (s.getV y).getLsbD j)) ∧
      keepsRegsBut s t [x] ∧ t.pc = s.pc + 2 ∧ changesOnly s t [.registers])

/-- R88: ADD Vx,Vy. With `x = 0xF` the flag is what stays (R80, decision D6, log 13). -/
def Obligations.AddRegistersSetsTheCarry : Prop :=
  ∀ (x y : Reg) (s : State),
    ∃ t, exec (.addVxVy x y) s = .next t ∧
      (x ≠ 15 → (t.getV x).toNat = ((s.getV x).toNat + (s.getV y).toNat) % 256) ∧
      t.vf = (if 256 ≤ (s.getV x).toNat + (s.getV y).toNat then 1 else 0) ∧
      keepsRegsBut s t [x, 15] ∧ t.pc = s.pc + 2 ∧ changesOnly s t [.registers]

/-- R89, R91: the flag of SUB and SUBN is the strict comparison of the old values, not the borrow; the result wraps
modulo 256. With `x = 0xF` the flag is what stays (R80, decision D6, log 13). -/
def Obligations.SubtractionsSetTheStrictComparison : Prop :=
  ∀ (x y : Reg) (s : State),
    (∃ t, exec (.sub x y) s = .next t ∧
      (x ≠ 15 → (t.getV x).toNat = ((s.getV x).toNat + 256 - (s.getV y).toNat) % 256) ∧
      t.vf = (if (s.getV y).toNat < (s.getV x).toNat then 1 else 0) ∧
      keepsRegsBut s t [x, 15] ∧ t.pc = s.pc + 2 ∧ changesOnly s t [.registers]) ∧
    (∃ t, exec (.subn x y) s = .next t ∧
      (x ≠ 15 → (t.getV x).toNat = ((s.getV y).toNat + 256 - (s.getV x).toNat) % 256) ∧
      t.vf = (if (s.getV x).toNat < (s.getV y).toNat then 1 else 0) ∧
      keepsRegsBut s t [x, 15] ∧ t.pc = s.pc + 2 ∧ changesOnly s t [.registers])

/-- R90, R92: SHR and SHL move `V[X]` by one and put the bit shifted out into `VF`; the `Y` field plays no part, every
`Y` decodes alike (R77, decision D7, log 14). With `x = 0xF` the flag is what stays (D6, log 13). -/
def Obligations.ShiftsSetTheBitShiftedOut : Prop :=
  ∀ (x y : Reg) (s : State),
    decodeWord (BitVec.ofNat 16 (0x8006 + 0x100 * x.val + 0x10 * y.val)) = .ok (.shr x) ∧
    decodeWord (BitVec.ofNat 16 (0x800E + 0x100 * x.val + 0x10 * y.val)) = .ok (.shl x) ∧
    (∃ t, exec (.shr x) s = .next t ∧
      (x ≠ 15 → (t.getV x).toNat = (s.getV x).toNat / 2) ∧ t.vf.toNat = (s.getV x).toNat % 2 ∧
      keepsRegsBut s t [x, 15] ∧ t.pc = s.pc + 2 ∧ changesOnly s t [.registers]) ∧
    (∃ t, exec (.shl x) s = .next t ∧
      (x ≠ 15 → (t.getV x).toNat = (s.getV x).toNat * 2 % 256) ∧ t.vf.toNat = (s.getV x).toNat / 128 ∧
      keepsRegsBut s t [x, 15] ∧ t.pc = s.pc + 2 ∧ changesOnly s t [.registers])

/-- R93, R176: RND stores `KK AND` the draw, whatever the draw is: an injected byte `r` is used and taken off, and
with none left it is the free value `Config.rndByte` (log 2); every bit that is 0 in `KK` is 0 afterwards.
The number of the word is the spec's from general knowledge (D1, log 1). -/
def Obligations.RandomAndMasksTheDraw : Prop :=
  ∀ (x : Reg) (kk : Byte) (s : State),
    hasWord (.rnd x kk) (0xC000 + 0x100 * x.val + kk.toNat) ∧
    ∃ t, exec (.rnd x kk) s = .next t ∧ t.pc = s.pc + 2 ∧ keepsRegsBut s t [x] ∧
      changesOnly s t [.registers, .environment] ∧
      t.env.schedule = s.env.schedule ∧ t.env.outputs = s.env.outputs ∧
      (∀ j, kk.getLsbD j = false → (t.getV x).getLsbD j = false) ∧
      (∀ r rest, s.env.rndQueue = r :: rest → t.getV x = kk &&& r ∧ t.env.rndQueue = rest ∧
        t.env.rndDraws = s.env.rndDraws) ∧
      (s.env.rndQueue = [] → t.getV x = kk &&& Config.rndByte s.env.rndDraws ∧ t.env.rndQueue = [] ∧
        t.env.rndDraws = s.env.rndDraws + 1)

/-- R12, R80: registers change only as the destination an instruction names or, for the six flag-writing
instructions, as `VF`; and those leave `VF` at 0 or 1. That this holds with `VF` as the destination too is decision D6
(log 13); that OR, AND and XOR leave `VF` is decision D8 (log 15); that LD Vx,[I] ends at `V[X]` is decision D14 (log 17). -/
def Obligations.RegistersChangeOnlyAsDestinationOrFlag : Prop :=
  ∀ (i : Instr) (s t : State), exec i s = .next t →
    (∀ r : Reg, ¬ isDestination i r → (writesFlag i = true → r ≠ 15) → t.getV r = s.getV r) ∧
    (writesFlag i = true → t.vf = 0 ∨ t.vf = 1)

/-! ### Control flow family (41_control_flow.md) -/

/-- R102: SYS changes nothing but `PC` and hands out one report with the old `PC` and the word (the report is kept
in the environment's outputs, log 4).
The number of the word is the spec's from general knowledge (D1, log 1). -/
def Obligations.SysReportsAndDoesNothingElse : Prop :=
  ∀ (nnn : Addr) (s : State),
    (Instr.wf (.sys nnn) = true → hasWord (.sys nnn) nnn.toNat) ∧
    exec (.sys nnn) s =
      .next { s with
        pc := s.pc + 2
        env := { s.env with outputs := s.env.outputs ++ [.sysReport s.pc (BitVec.ofNat 16 nnn.toNat)] } }

/-- R104: JP sets `PC` to the address operand and changes nothing else.
The number of the word is the spec's from general knowledge (D1, log 1). -/
def Obligations.JumpSetsThePc : Prop :=
  ∀ (nnn : Addr) (s : State),
    hasWord (.jp nnn) (0x1000 + nnn.toNat) ∧
    ∃ t, exec (.jp nnn) s = .next t ∧ t.pc.toNat = nnn.toNat ∧ changesOnly s t []

/-- R105: CALL pushes the address after itself, all 16 bits, then jumps, at any depth.
The number of the word is the spec's from general knowledge (D1, log 1). -/
def Obligations.CallPushesTheNextAddress : Prop :=
  ∀ (nnn : Addr) (s : State),
    hasWord (.call nnn) (0x2000 + nnn.toNat) ∧
    ∃ t, exec (.call nnn) s = .next t ∧ t.pc.toNat = nnn.toNat ∧
      (t.stackCell s.sp).toNat = (s.pc.toNat + 2) % 65536 ∧
      (∀ j, j ≠ s.sp → t.stackCell j = s.stackCell j) ∧ t.sp.toNat = (s.sp.toNat + 1) % 16 ∧
      changesOnly s t [.stack] ∧
      (exec .ret t = .next { t with pc := s.pc + 2, sp := s.sp })

/-- R103: RET sets `PC` to the popped cell, all 16 bits and nothing added, even on an empty stack (decision D38,
log 20).
The number of the word is the spec's from general knowledge (D1, log 1). -/
def Obligations.ReturnPopsThePc : Prop :=
  hasWord .ret 0x00EE ∧
  ∀ s : State, ∃ t, exec .ret s = .next t ∧ t.sp.toNat = (s.sp.toNat + 15) % 16 ∧
    t.pc = s.stackCell t.sp ∧ (∀ j, t.stackCell j = s.stackCell j) ∧ changesOnly s t [.stack]

/-- The source's property (95_test_vectors.md S6): a CALL whose target holds RET comes back after two steps of the core to
the address after the CALL (decision D3, log 12), with the cursor as before; with the empty schedule these are the next
two steps of the machine (log 3). The two words are D1 (log 1). -/
def Obligations.CallThenReturnComesBack : Prop :=
  ∀ (s : State) (nnn : Addr), s.pc.toNat % 4096 ≠ 4095 → nnn.toNat ≠ 4095 →
    decodeWord s.wordAtPc = .ok (.call nnn) →
    s.mem.read nnn.toNat = 0x00 → s.mem.read (nnn.toNat + 1) = 0xEE →
    ∃ u t, stepCore s = .next u ∧ stepCore u = .next t ∧
      (s.env.schedule = [] → step s = .next u ∧ step u = .next t) ∧
      t.pc.toNat = (s.pc.toNat + 2) % 65536 ∧ t.sp = s.sp ∧
      changesOnly s t [.stack] ∧ (∀ j, j ≠ s.sp → t.stackCell j = s.stackCell j)

/-- R106 to R109: the four register skips: `PC + 4` when the condition holds, else `PC + 2`, modulo 65536, and
nothing else changes.
The number of the word is the spec's from general knowledge (D1, log 1). -/
def Obligations.SkipsTestEquality : Prop :=
  ∀ (x y : Reg) (kk : Byte) (s : State),
    hasWord (.seVxKk x kk) (0x3000 + 0x100 * x.val + kk.toNat) ∧
    hasWord (.sneVxKk x kk) (0x4000 + 0x100 * x.val + kk.toNat) ∧
    hasWord (.seVxVy x y) (0x5000 + 0x100 * x.val + 0x10 * y.val) ∧
    hasWord (.sneVxVy x y) (0x9000 + 0x100 * x.val + 0x10 * y.val) ∧
    (∃ t, exec (.seVxKk x kk) s = .next t ∧ changesOnly s t [] ∧
      t.pc.toNat = (s.pc.toNat + if (s.getV x).toNat = kk.toNat then 4 else 2) % 65536) ∧
    (∃ t, exec (.sneVxKk x kk) s = .next t ∧ changesOnly s t [] ∧
      t.pc.toNat = (s.pc.toNat + if (s.getV x).toNat = kk.toNat then 2 else 4) % 65536) ∧
    (∃ t, exec (.seVxVy x y) s = .next t ∧ changesOnly s t [] ∧
      t.pc.toNat = (s.pc.toNat + if (s.getV x).toNat = (s.getV y).toNat then 4 else 2) % 65536) ∧
    (∃ t, exec (.sneVxVy x y) s = .next t ∧ changesOnly s t [] ∧
      t.pc.toNat = (s.pc.toNat + if (s.getV x).toNat = (s.getV y).toNat then 2 else 4) % 65536)

/-- R110: JP V0,nnn sets `PC` to the sum, not reduced to 12 bits (decision D5, log 12). -/
def Obligations.JumpWithOffsetIsNotMasked : Prop :=
  ∀ (nnn : Addr) (s : State),
    ∃ t, exec (.jpV0 nnn) s = .next t ∧ t.pc.toNat = nnn.toNat + (s.getV 0).toNat ∧ changesOnly s t []

/-- The table of R16: the net effect on `PC` of every instruction that completes (decisions D3 and D5, log 12;
RET's 16 bits D38, log 20; the byte a key skip compares D27, log 19; the hold of LD Vx,K leaves `PC`, D26, log 5). -/
def Obligations.PcAfterEveryInstruction : Prop :=
  ∀ (i : Instr) (s t : State), exec i s = .next t → t.pc = pcAfter i s

/-- R55: nothing aliases memory. A store never changes a pixel, a stack cell, a register, a timer or `KEY`, and CLS, DRW,
CALL and RET never change memory; said, with R12 to R14, R18, R19, R21, R40 and R126, for every instruction and every
part of the state. That LD B,Vx, LD [I],Vx and LD Vx,[I] leave `I` is decision D15 (log 17); that SYS appends its report to
the environment's outputs and RND draws from its queue or counter is the model's own (logs 4 and 2). -/
def Obligations.EachInstructionWritesOnlyItsOwnState : Prop :=
  ∀ (i : Instr) (s t : State), exec i s = .next t → changesOnly s t (mayWrite i)

/-! ### Index and memory family (42_index_memory.md) -/

/-- R120, R122: LD I,nnn and LD F,Vx; the whole byte is multiplied by 5 (general knowledge G4, log 1; decision D37,
log 20). -/
def Obligations.IndexLoadsAddressAndGlyph : Prop :=
  ∀ (nnn : Addr) (x : Reg) (s : State),
    (∃ t, exec (.ldINnn nnn) s = .next t ∧ t.i.toNat = nnn.toNat ∧ t.pc = s.pc + 2 ∧ changesOnly s t [.index]) ∧
    (∃ t, exec (.ldFVx x) s = .next t ∧ t.i.toNat = (s.getV x).toNat * 5 ∧ t.pc = s.pc + 2 ∧
      changesOnly s t [.index])

/-- R121: ADD I,Vx adds modulo 65536 and writes no flag.
The number of the word is the spec's from general knowledge (D1, log 1). -/
def Obligations.AddToIndexWrapsAtSixteenBits : Prop :=
  ∀ (x : Reg) (s : State),
    hasWord (.addIVx x) (0xF01E + 0x100 * x.val) ∧
    ∃ t, exec (.addIVx x) s = .next t ∧ t.i.toNat = (s.i.toNat + (s.getV x).toNat) % 65536 ∧
      t.vf = s.vf ∧ t.pc = s.pc + 2 ∧ changesOnly s t [.index]

/-- R123: LD B,Vx stores the three decimal digits at `I mod 4096`, or faults when they do not fit, and changes nothing
else; each digit is at most 9 and the first at most 2. `I` unchanged is decision D15 (log 17), the values the fault records
are decision D12 (log 6) and its word is the encoder's (log 24).
The number of the word is the spec's from general knowledge (D1, log 1). -/
def Obligations.DecimalStoreWritesThreeDigits : Prop :=
  ∀ (x : Reg) (s : State),
    hasWord (.ldBVx x) (0xF033 + 0x100 * x.val) ∧
    (s.i.toNat % 4096 + 3 ≤ 4096 →
      ∃ t, exec (.ldBVx x) s = .next t ∧
        (t.mem.read (s.i.toNat % 4096)).toNat = (s.getV x).toNat / 100 ∧
        (t.mem.read (s.i.toNat % 4096 + 1)).toNat = (s.getV x).toNat / 10 % 10 ∧
        (t.mem.read (s.i.toNat % 4096 + 2)).toNat = (s.getV x).toNat % 10 ∧
        (t.mem.read (s.i.toNat % 4096)).toNat ≤ 2 ∧
        keepsMemoryOutside s t (s.i.toNat % 4096) 3 ∧ t.pc = s.pc + 2 ∧ changesOnly s t [.memory]) ∧
    (4096 < s.i.toNat % 4096 + 3 → exec (.ldBVx x) s = .fault (.memWriteOverrun s.pc (encode (.ldBVx x))))

/-- R124: LD [I],Vx stores `V[0]` to `V[X]` at `I mod 4096`, or faults when they do not fit; `I` and the registers are
unchanged (the bound is decision D14, `I` unchanged D15, log 17; the values the fault records are decision D12, log 6, and
its word is the encoder's, log 24). -/
def Obligations.RegisterStoreWritesTheRange : Prop :=
  ∀ (x : Reg) (s : State),
    (s.i.toNat % 4096 + (x.val + 1) ≤ 4096 →
      ∃ t, exec (.ldMiVx x) s = .next t ∧
        (∀ j : Reg, j ≤ x → t.mem.read (s.i.toNat % 4096 + j.val) = s.getV j) ∧
        keepsMemoryOutside s t (s.i.toNat % 4096) (x.val + 1) ∧ t.pc = s.pc + 2 ∧ changesOnly s t [.memory]) ∧
    (4096 < s.i.toNat % 4096 + (x.val + 1) →
      exec (.ldMiVx x) s = .fault (.memWriteOverrun s.pc (encode (.ldMiVx x))))

/-- R125: LD Vx,[I] loads `V[0]` to `V[X]`; a register whose byte lies past the end of memory, and every register above
`V[X]`, keeps its value (decisions D14 to D16, log 17). -/
def Obligations.RegisterLoadReadsTheRange : Prop :=
  ∀ (x : Reg) (s : State),
    ∃ t, exec (.ldVxMi x) s = .next t ∧
      (∀ j : Reg, j ≤ x → s.i.toNat % 4096 + j.val < 4096 → t.getV j = s.mem.read (s.i.toNat % 4096 + j.val)) ∧
      (∀ j : Reg, x < j ∨ 4096 ≤ s.i.toNat % 4096 + j.val → t.getV j = s.getV j) ∧
      t.pc = s.pc + 2 ∧ changesOnly s t [.registers]

/-- The source's property (95_test_vectors.md S5), for every bound: what LD [I],Vx stored, LD Vx,[I] brings back from
any later state with the same memory and `I`. -/
def Obligations.StoreThenLoadRestoresTheRegisters : Prop :=
  ∀ (x : Reg) (s : State), storeFits (.ldMiVx x) s →
    ∃ t, exec (.ldMiVx x) s = .next t ∧
      ∀ u : State, u.mem = t.mem → u.i = t.i →
        ∃ w, exec (.ldVxMi x) u = .next w ∧ (∀ j : Reg, j ≤ x → w.getV j = s.getV j) ∧
          (∀ j : Reg, x < j → w.getV j = u.getV j)

/-! ### Display family (43_display.md) -/

/-- R140: CLS zeroes the framebuffer and changes nothing else.
The number of the word is the spec's from general knowledge (D1, log 1). -/
def Obligations.ClearZeroesTheFramebuffer : Prop :=
  hasWord .cls 0x00E0 ∧
  ∀ s : State, ∃ t, exec .cls s = .next t ∧ (∀ k : Fin 256, t.fb[k.val] = 0) ∧ t.vf = s.vf ∧
    t.pc = s.pc + 2 ∧ changesOnly s t [.display]

/-- R141, R142, R144: DRW completes, flips exactly the pixels the clipped sprite covers with a set bit, starting at
column `V[X] mod 64`, row `V[Y] mod 32`, and changes nothing but the framebuffer, `VF` and `PC` (decisions D17 to D19,
D21, log 18). -/
def Obligations.DrawXorsTheSpriteOntoThePixels : Prop :=
  ∀ (x y : Reg) (n : Fin 16) (s : State),
    ∃ t, exec (.drw x y n) s = .next t ∧
      (∀ (px : Fin 64) (py : Fin 32),
        pixel t.fb px py =
          (pixel s.fb px py ^^ spriteBit s ((s.getV x).toNat % 64) ((s.getV y).toNat % 32) n px py)) ∧
      keepsRegsBut s t [15] ∧ t.pc = s.pc + 2 ∧ changesOnly s t [.display, .registers]

/-- R143: the flag of DRW is 1 exactly when the number of set bits in the touched bytes, over the whole draw, went down
(the scope of the count is decision D20, log 18). -/
def Obligations.DrawFlagComparesTheBitCounts : Prop :=
  ∀ (x y : Reg) (n : Fin 16) (s : State),
    ∃ t, exec (.drw x y n) s = .next t ∧
      t.vf =
        (if bitCount t.fb (touchedBytes ((s.getV x).toNat % 64) ((s.getV y).toNat % 32) (rowsRead s n)) <
            bitCount s.fb (touchedBytes ((s.getV x).toNat % 64) ((s.getV y).toNat % 32) (rowsRead s n))
         then 1 else 0)

/-- The source's property (95_test_vectors.md S8): drawing the same sprite twice at the same place restores the display;
onto a cleared region, with a bit on the screen, the first draw reports 0 and the second 1. The coordinates are the same
when neither register is `VF`. -/
def Obligations.DrawingTwiceRestoresTheDisplay : Prop :=
  ∀ (x y : Reg) (n : Fin 16) (s : State), x ≠ 15 → y ≠ 15 →
    ∃ t u, exec (.drw x y n) s = .next t ∧ exec (.drw x y n) t = .next u ∧
      (∀ k : Fin 256, u.fb[k.val] = s.fb[k.val]) ∧
      ((∀ k ∈ touchedBytes ((s.getV x).toNat % 64) ((s.getV y).toNat % 32) (rowsRead s n), s.fb.toList.getD k 0 = 0) →
       (∃ px py, spriteBit s ((s.getV x).toNat % 64) ((s.getV y).toNat % 32) n px py = true) →
       t.vf = 0 ∧ u.vf = 1)

/-! ### Keyboard and timer family, environment (44_keyboard_timers.md, 45_environment_ops.md) -/

/-- R150, R151: SKP skips exactly when the key held is the one the whole byte `V[X]` names, SKNP exactly when not
(decision D27, log 19). -/
def Obligations.KeySkipsCompareTheWholeByte : Prop :=
  ∀ (x : Reg) (s : State),
    ∃ t u, exec (.skp x) s = .next t ∧ exec (.sknp x) s = .next u ∧ changesOnly s t [] ∧ changesOnly s u [] ∧
      ((∃ k, s.key = some k ∧ k.toNat = (s.getV x).toNat) → t.pc = s.pc + 4 ∧ u.pc = s.pc + 2) ∧
      ((¬ ∃ k, s.key = some k ∧ k.toNat = (s.getV x).toNat) → t.pc = s.pc + 2 ∧ u.pc = s.pc + 4)

/-- R152, R153: LD Vx,K holds with no key, and with one takes its code without consuming it (decision D26, logs 5
and 19). -/
def Obligations.KeyLoadHoldsUntilAKeyIsSet : Prop :=
  ∀ (x : Reg) (s : State),
    (s.key = none → exec (.ldVxK x) s = .next s) ∧
    (∀ k, s.key = some k →
      ∃ t, exec (.ldVxK x) s = .next t ∧ (t.getV x).toNat = k.toNat ∧ t.key = some k ∧ keepsRegsBut s t [x] ∧
        t.pc = s.pc + 2 ∧ changesOnly s t [.registers])

/-- R173: a scheduled key clear empties the latch, takes itself off the schedule (which is the model's, log 3) and does
nothing else; a hold in place stays in place (log 5). R21: no instruction clears the latch, or sets it. -/
def Obligations.KeyClearOnlyEmptiesTheLatch : Prop :=
  (∀ (s : State) (rest : List Event), s.env.schedule = .keyClear :: rest →
    ∃ t, step s = .next t ∧ t.key = none ∧ t.env = { s.env with schedule := rest } ∧ t.pc = s.pc ∧
      changesOnly s t [.key, .environment] ∧ (s.held → t.held)) ∧
  (∀ (i : Instr) (s t : State), exec i s = .next t → t.key = s.key)

/-- R154 to R156: the timer moves (that they exist is general knowledge G4, log 1). -/
def Obligations.TimerMovesCopyOneByte : Prop :=
  ∀ (x : Reg) (s : State),
    (∃ t, exec (.ldVxDt x) s = .next t ∧ t.getV x = s.dt ∧ keepsRegsBut s t [x] ∧ t.pc = s.pc + 2 ∧
      changesOnly s t [.registers]) ∧
    (∃ t, exec (.ldDtVx x) s = .next t ∧ t.dt = s.getV x ∧ t.pc = s.pc + 2 ∧ changesOnly s t [.delayTimer]) ∧
    (∃ t, exec (.ldStVx x) s = .next t ∧ t.st = s.getV x ∧ t.pc = s.pc + 2 ∧ changesOnly s t [.soundTimer])

/-- R174: a scheduled tick takes one from each timer that is not zero; a timer at zero stays (decision D24, log 19; the
schedule is log 3). -/
def Obligations.TimerTickCountsDownToZero : Prop :=
  ∀ (s : State) (rest : List Event), s.env.schedule = .timerTick :: rest →
    ∃ t, step s = .next t ∧ t.dt.toNat = s.dt.toNat - 1 ∧ t.st.toNat = s.st.toNat - 1 ∧
      t.env = { s.env with schedule := rest } ∧ t.pc = s.pc ∧
      changesOnly s t [.delayTimer, .soundTimer, .environment]

/-- R171: a scheduled load writes the image from 0x200 up and changes nothing else, or is refused when the image is
longer than 3584 bytes (decision D30, log 10; the schedule is log 3). -/
def Obligations.LoadProgramWritesTheImage : Prop :=
  ∀ (s : State) (bytes : List Byte) (rest : List Event), s.env.schedule = .loadProgram bytes :: rest →
    (bytes.length ≤ 3584 →
      ∃ t, step s = .next t ∧ (∀ j b, bytes[j]? = some b → t.mem.read (0x200 + j) = b) ∧
        keepsMemoryOutside s t 0x200 bytes.length ∧ t.env = { s.env with schedule := rest } ∧ t.pc = s.pc ∧
        changesOnly s t [.memory, .environment]) ∧
    (3584 < bytes.length → step s = .refused (.launchRefused bytes.length))

/-- R175: a scheduled framebuffer read hands out the 256 bytes and changes nothing in the block (the frame is kept in the
environment's outputs, log 4; reads happen between steps only, decision D35, log 23; the schedule is log 3). -/
def Obligations.FramebufferReadChangesNothing : Prop :=
  ∀ (s : State) (rest : List Event), s.env.schedule = .fbRead :: rest →
    ∃ t, step s = .next t ∧ t.env = { s.env with schedule := rest, outputs := s.env.outputs ++ [.frame s.fb] } ∧
      t.pc = s.pc ∧ changesOnly s t [.environment]

/-- R170 to R175 and R196, with R26 and R29: each environment operation but `reset` changes only what its rule gives it,
and never `PC`, a register, `I`, the stack or a pixel: `load_program` memory, the key events `KEY`, the tick `DT` and
`ST`, and the framebuffer read nothing but the list of outputs, to which it appends (log 4). -/
def Obligations.EnvironmentEventsStayInTheirPlace : Prop :=
  ∀ (e : Event) (s t : State), perform e s = .next t → e ≠ .step → e ≠ .reset →
    t.pc = s.pc ∧ changesOnly s t (eventMayWrite e) ∧
    t.env.schedule = s.env.schedule ∧ t.env.rndQueue = s.env.rndQueue ∧ t.env.rndDraws = s.env.rndDraws ∧
    (e = .fbRead → t.env.outputs = s.env.outputs ++ [.frame s.fb])
end

