-- ==== Sys2Proof/Laws/Encoding.lean ====
section
/-! SUPPORT. Fields and encodings as numbers, so that facts about words are facts for `omega`. -/

namespace Sys2Proof

@[simp] theorem nibbleAt_val (w : Word) (lo : Nat) : (nibbleAt w lo).val = w.toNat / 2 ^ lo % 16 := by
  simp [nibbleAt, Nat.shiftRight_eq_div_pow]

theorem fieldFam_val (w : Word) : (fieldFam w).val = w.toNat / 4096 := by
  have := w.isLt; simp only [fieldFam, nibbleAt_val]; omega
theorem fieldX_val (w : Word) : (fieldX w).val = w.toNat / 256 % 16 := by simp [fieldX]
theorem fieldY_val (w : Word) : (fieldY w).val = w.toNat / 16 % 16 := by simp [fieldY]
theorem fieldN_val (w : Word) : (fieldN w).val = w.toNat % 16 := by simp [fieldN]
theorem fieldKK_toNat (w : Word) : (fieldKK w).toNat = w.toNat % 256 := by simp [fieldKK]
theorem fieldNNN_toNat (w : Word) : (fieldNNN w).toNat = w.toNat % 4096 := by simp [fieldNNN]

theorem append_toNat {m n : Nat} (a : BitVec m) (b : BitVec n) : (a ++ b).toNat = a.toNat * 2 ^ n + b.toNat := by
  rw [BitVec.toNat_append, ← Nat.shiftLeft_add_eq_or_of_lt b.isLt, Nat.shiftLeft_eq]

@[simp] theorem nibble_toNat (x : Fin 16) : (nibble x).toNat = x.val := by simp [nibble]

theorem wordOfBytes_toNat (b0 b1 : Byte) : (wordOfBytes b0 b1).toNat = b0.toNat * 256 + b1.toNat :=
  append_toNat b0 b1

theorem encodeNNN_toNat (fam : Nibble) (nnn : Addr) : (encodeNNN fam nnn).toNat = fam.toNat * 4096 + nnn.toNat :=
  append_toNat fam nnn

theorem encodeXKK_toNat (fam : Nibble) (x : Reg) (kk : Byte) :
    (encodeXKK fam x kk).toNat = fam.toNat * 4096 + x.val * 256 + kk.toNat := by
  have h1 := append_toNat (fam ++ nibble x) kk
  have h2 := append_toNat fam (nibble x)
  simp only [nibble_toNat] at h2
  have : (encodeXKK fam x kk).toNat = (fam ++ nibble x ++ kk).toNat := rfl
  omega

theorem encodeXYN_toNat (fam : Nibble) (x y n : Fin 16) :
    (encodeXYN fam x y n).toNat = fam.toNat * 4096 + x.val * 256 + y.val * 16 + n.val := by
  have h1 := append_toNat (fam ++ nibble x ++ nibble y) (nibble n)
  have h2 := append_toNat (fam ++ nibble x) (nibble y)
  have h3 := append_toNat fam (nibble x)
  simp only [nibble_toNat] at h1 h2 h3
  have : (encodeXYN fam x y n).toNat = (fam ++ nibble x ++ nibble y ++ nibble n).toNat := rfl
  omega

/-! ### The fields of an encoded word -/

section
variable (fam : Nibble) (x y n : Fin 16) (kk : Byte) (nnn : Addr)

@[simp] theorem fieldFam_encodeNNN : (fieldFam (encodeNNN fam nnn)).val = fam.toNat := by
  have := nnn.isLt; rw [fieldFam_val, encodeNNN_toNat]; omega
@[simp] theorem fieldNNN_encodeNNN : fieldNNN (encodeNNN fam nnn) = nnn := by
  have := nnn.isLt; apply BitVec.eq_of_toNat_eq; rw [fieldNNN_toNat, encodeNNN_toNat]; omega

@[simp] theorem fieldFam_encodeXKK : (fieldFam (encodeXKK fam x kk)).val = fam.toNat := by
  have := kk.isLt; rw [fieldFam_val, encodeXKK_toNat]; omega
@[simp] theorem fieldX_encodeXKK : fieldX (encodeXKK fam x kk) = x := by
  have := kk.isLt; apply Fin.ext; rw [fieldX_val, encodeXKK_toNat]; omega
@[simp] theorem fieldKK_encodeXKK : fieldKK (encodeXKK fam x kk) = kk := by
  have := kk.isLt; apply BitVec.eq_of_toNat_eq; rw [fieldKK_toNat, encodeXKK_toNat]; omega

@[simp] theorem fieldFam_encodeXYN : (fieldFam (encodeXYN fam x y n)).val = fam.toNat := by
  rw [fieldFam_val, encodeXYN_toNat]; omega
@[simp] theorem fieldX_encodeXYN : fieldX (encodeXYN fam x y n) = x := by
  apply Fin.ext; rw [fieldX_val, encodeXYN_toNat]; omega
@[simp] theorem fieldY_encodeXYN : fieldY (encodeXYN fam x y n) = y := by
  apply Fin.ext; rw [fieldY_val, encodeXYN_toNat]; omega
@[simp] theorem fieldN_encodeXYN : fieldN (encodeXYN fam x y n) = n := by
  apply Fin.ext; rw [fieldN_val, encodeXYN_toNat]; omega

end

end Sys2Proof
end

