-- ==== Sys2Proof/Laws/State.lean ====
section
/-! SUPPORT. One lemma per field per update of the state, and what the register and stack accessors give after
an update. Later proofs cite these and unfold no record update. -/

namespace Sys2Proof.Machine

@[simp] theorem setV_mem (s : State) (x : Reg) (b : Byte) : (s.setV x b).mem = s.mem := rfl
@[simp] theorem setV_v (s : State) (x : Reg) (b : Byte) : (s.setV x b).v = s.v.set x.val b := rfl
@[simp] theorem setV_dt (s : State) (x : Reg) (b : Byte) : (s.setV x b).dt = s.dt := rfl
@[simp] theorem setV_st (s : State) (x : Reg) (b : Byte) : (s.setV x b).st = s.st := rfl
@[simp] theorem setV_i (s : State) (x : Reg) (b : Byte) : (s.setV x b).i = s.i := rfl
@[simp] theorem setV_pc (s : State) (x : Reg) (b : Byte) : (s.setV x b).pc = s.pc := rfl
@[simp] theorem setV_stack (s : State) (x : Reg) (b : Byte) : (s.setV x b).stack = s.stack := rfl
@[simp] theorem setV_sp (s : State) (x : Reg) (b : Byte) : (s.setV x b).sp = s.sp := rfl
@[simp] theorem setV_fb (s : State) (x : Reg) (b : Byte) : (s.setV x b).fb = s.fb := rfl
@[simp] theorem setV_key (s : State) (x : Reg) (b : Byte) : (s.setV x b).key = s.key := rfl
@[simp] theorem setV_env (s : State) (x : Reg) (b : Byte) : (s.setV x b).env = s.env := rfl

@[simp] theorem setResultAndFlag_mem (s : State) (x : Reg) (r f : Byte) : (s.setResultAndFlag x r f).mem = s.mem := rfl
@[simp] theorem setResultAndFlag_dt (s : State) (x : Reg) (r f : Byte) : (s.setResultAndFlag x r f).dt = s.dt := rfl
@[simp] theorem setResultAndFlag_st (s : State) (x : Reg) (r f : Byte) : (s.setResultAndFlag x r f).st = s.st := rfl
@[simp] theorem setResultAndFlag_i (s : State) (x : Reg) (r f : Byte) : (s.setResultAndFlag x r f).i = s.i := rfl
@[simp] theorem setResultAndFlag_pc (s : State) (x : Reg) (r f : Byte) : (s.setResultAndFlag x r f).pc = s.pc := rfl
@[simp] theorem setResultAndFlag_stack (s : State) (x : Reg) (r f : Byte) : (s.setResultAndFlag x r f).stack = s.stack := rfl
@[simp] theorem setResultAndFlag_sp (s : State) (x : Reg) (r f : Byte) : (s.setResultAndFlag x r f).sp = s.sp := rfl
@[simp] theorem setResultAndFlag_fb (s : State) (x : Reg) (r f : Byte) : (s.setResultAndFlag x r f).fb = s.fb := rfl
@[simp] theorem setResultAndFlag_key (s : State) (x : Reg) (r f : Byte) : (s.setResultAndFlag x r f).key = s.key := rfl
@[simp] theorem setResultAndFlag_env (s : State) (x : Reg) (r f : Byte) : (s.setResultAndFlag x r f).env = s.env := rfl

@[simp] theorem jump_mem (s : State) (a : Word) : (s.jump a).mem = s.mem := rfl
@[simp] theorem jump_v (s : State) (a : Word) : (s.jump a).v = s.v := rfl
@[simp] theorem jump_dt (s : State) (a : Word) : (s.jump a).dt = s.dt := rfl
@[simp] theorem jump_st (s : State) (a : Word) : (s.jump a).st = s.st := rfl
@[simp] theorem jump_i (s : State) (a : Word) : (s.jump a).i = s.i := rfl
@[simp] theorem jump_pc (s : State) (a : Word) : (s.jump a).pc = a := rfl
@[simp] theorem jump_stack (s : State) (a : Word) : (s.jump a).stack = s.stack := rfl
@[simp] theorem jump_sp (s : State) (a : Word) : (s.jump a).sp = s.sp := rfl
@[simp] theorem jump_fb (s : State) (a : Word) : (s.jump a).fb = s.fb := rfl
@[simp] theorem jump_key (s : State) (a : Word) : (s.jump a).key = s.key := rfl
@[simp] theorem jump_env (s : State) (a : Word) : (s.jump a).env = s.env := rfl

@[simp] theorem advance_mem (s : State) : (s.advance).mem = s.mem := rfl
@[simp] theorem advance_v (s : State) : (s.advance).v = s.v := rfl
@[simp] theorem advance_dt (s : State) : (s.advance).dt = s.dt := rfl
@[simp] theorem advance_st (s : State) : (s.advance).st = s.st := rfl
@[simp] theorem advance_i (s : State) : (s.advance).i = s.i := rfl
@[simp] theorem advance_pc (s : State) : (s.advance).pc = s.pc + 2 := rfl
@[simp] theorem advance_stack (s : State) : (s.advance).stack = s.stack := rfl
@[simp] theorem advance_sp (s : State) : (s.advance).sp = s.sp := rfl
@[simp] theorem advance_fb (s : State) : (s.advance).fb = s.fb := rfl
@[simp] theorem advance_key (s : State) : (s.advance).key = s.key := rfl
@[simp] theorem advance_env (s : State) : (s.advance).env = s.env := rfl

@[simp] theorem skipIf_mem (s : State) (c : Bool) : (s.skipIf c).mem = s.mem := by cases c <;> rfl
@[simp] theorem skipIf_v (s : State) (c : Bool) : (s.skipIf c).v = s.v := by cases c <;> rfl
@[simp] theorem skipIf_dt (s : State) (c : Bool) : (s.skipIf c).dt = s.dt := by cases c <;> rfl
@[simp] theorem skipIf_st (s : State) (c : Bool) : (s.skipIf c).st = s.st := by cases c <;> rfl
@[simp] theorem skipIf_i (s : State) (c : Bool) : (s.skipIf c).i = s.i := by cases c <;> rfl
@[simp] theorem skipIf_pc (s : State) (c : Bool) : (s.skipIf c).pc = if c then s.pc + 2 + 2 else s.pc + 2 := by cases c <;> rfl
@[simp] theorem skipIf_stack (s : State) (c : Bool) : (s.skipIf c).stack = s.stack := by cases c <;> rfl
@[simp] theorem skipIf_sp (s : State) (c : Bool) : (s.skipIf c).sp = s.sp := by cases c <;> rfl
@[simp] theorem skipIf_fb (s : State) (c : Bool) : (s.skipIf c).fb = s.fb := by cases c <;> rfl
@[simp] theorem skipIf_key (s : State) (c : Bool) : (s.skipIf c).key = s.key := by cases c <;> rfl
@[simp] theorem skipIf_env (s : State) (c : Bool) : (s.skipIf c).env = s.env := by cases c <;> rfl

@[simp] theorem push_mem (s : State) (a : Word) : (s.push a).mem = s.mem := rfl
@[simp] theorem push_v (s : State) (a : Word) : (s.push a).v = s.v := rfl
@[simp] theorem push_dt (s : State) (a : Word) : (s.push a).dt = s.dt := rfl
@[simp] theorem push_st (s : State) (a : Word) : (s.push a).st = s.st := rfl
@[simp] theorem push_i (s : State) (a : Word) : (s.push a).i = s.i := rfl
@[simp] theorem push_pc (s : State) (a : Word) : (s.push a).pc = s.pc := rfl
@[simp] theorem push_sp (s : State) (a : Word) : (s.push a).sp = s.sp + 1 := rfl
@[simp] theorem push_fb (s : State) (a : Word) : (s.push a).fb = s.fb := rfl
@[simp] theorem push_key (s : State) (a : Word) : (s.push a).key = s.key := rfl
@[simp] theorem push_env (s : State) (a : Word) : (s.push a).env = s.env := rfl

@[simp] theorem pop_mem (s : State) : (s.pop.2).mem = s.mem := rfl
@[simp] theorem pop_v (s : State) : (s.pop.2).v = s.v := rfl
@[simp] theorem pop_dt (s : State) : (s.pop.2).dt = s.dt := rfl
@[simp] theorem pop_st (s : State) : (s.pop.2).st = s.st := rfl
@[simp] theorem pop_i (s : State) : (s.pop.2).i = s.i := rfl
@[simp] theorem pop_pc (s : State) : (s.pop.2).pc = s.pc := rfl
@[simp] theorem pop_stack (s : State) : (s.pop.2).stack = s.stack := rfl
@[simp] theorem pop_sp (s : State) : (s.pop.2).sp = s.sp - 1 := rfl
@[simp] theorem pop_fb (s : State) : (s.pop.2).fb = s.fb := rfl
@[simp] theorem pop_key (s : State) : (s.pop.2).key = s.key := rfl
@[simp] theorem pop_env (s : State) : (s.pop.2).env = s.env := rfl

@[simp] theorem emit_mem (s : State) (o : Output) : (s.emit o).mem = s.mem := rfl
@[simp] theorem emit_v (s : State) (o : Output) : (s.emit o).v = s.v := rfl
@[simp] theorem emit_dt (s : State) (o : Output) : (s.emit o).dt = s.dt := rfl
@[simp] theorem emit_st (s : State) (o : Output) : (s.emit o).st = s.st := rfl
@[simp] theorem emit_i (s : State) (o : Output) : (s.emit o).i = s.i := rfl
@[simp] theorem emit_pc (s : State) (o : Output) : (s.emit o).pc = s.pc := rfl
@[simp] theorem emit_stack (s : State) (o : Output) : (s.emit o).stack = s.stack := rfl
@[simp] theorem emit_sp (s : State) (o : Output) : (s.emit o).sp = s.sp := rfl
@[simp] theorem emit_fb (s : State) (o : Output) : (s.emit o).fb = s.fb := rfl
@[simp] theorem emit_key (s : State) (o : Output) : (s.emit o).key = s.key := rfl
@[simp] theorem emit_env (s : State) (o : Output) : (s.emit o).env = { s.env with outputs := s.env.outputs ++ [o] } := rfl

@[simp] theorem rndTaken_mem (s : State) : (s.rndTaken).mem = s.mem := by unfold State.rndTaken; split <;> rfl
@[simp] theorem rndTaken_v (s : State) : (s.rndTaken).v = s.v := by unfold State.rndTaken; split <;> rfl
@[simp] theorem rndTaken_dt (s : State) : (s.rndTaken).dt = s.dt := by unfold State.rndTaken; split <;> rfl
@[simp] theorem rndTaken_st (s : State) : (s.rndTaken).st = s.st := by unfold State.rndTaken; split <;> rfl
@[simp] theorem rndTaken_i (s : State) : (s.rndTaken).i = s.i := by unfold State.rndTaken; split <;> rfl
@[simp] theorem rndTaken_pc (s : State) : (s.rndTaken).pc = s.pc := by unfold State.rndTaken; split <;> rfl
@[simp] theorem rndTaken_stack (s : State) : (s.rndTaken).stack = s.stack := by unfold State.rndTaken; split <;> rfl
@[simp] theorem rndTaken_sp (s : State) : (s.rndTaken).sp = s.sp := by unfold State.rndTaken; split <;> rfl
@[simp] theorem rndTaken_fb (s : State) : (s.rndTaken).fb = s.fb := by unfold State.rndTaken; split <;> rfl
@[simp] theorem rndTaken_key (s : State) : (s.rndTaken).key = s.key := by unfold State.rndTaken; split <;> rfl

@[simp] theorem resetBlock_mem (s : State) : (s.resetBlock).mem = State.reset.mem := rfl
@[simp] theorem resetBlock_v (s : State) : (s.resetBlock).v = State.reset.v := rfl
@[simp] theorem resetBlock_dt (s : State) : (s.resetBlock).dt = State.reset.dt := rfl
@[simp] theorem resetBlock_st (s : State) : (s.resetBlock).st = State.reset.st := rfl
@[simp] theorem resetBlock_i (s : State) : (s.resetBlock).i = State.reset.i := rfl
@[simp] theorem resetBlock_pc (s : State) : (s.resetBlock).pc = State.reset.pc := rfl
@[simp] theorem resetBlock_stack (s : State) : (s.resetBlock).stack = State.reset.stack := rfl
@[simp] theorem resetBlock_sp (s : State) : (s.resetBlock).sp = State.reset.sp := rfl
@[simp] theorem resetBlock_fb (s : State) : (s.resetBlock).fb = State.reset.fb := rfl
@[simp] theorem resetBlock_key (s : State) : (s.resetBlock).key = State.reset.key := rfl
@[simp] theorem resetBlock_env (s : State) : (s.resetBlock).env = s.env := rfl

@[simp] theorem keySet_mem (s : State) (k : Nibble) : (s.keySet k).mem = s.mem := rfl
@[simp] theorem keySet_v (s : State) (k : Nibble) : (s.keySet k).v = s.v := rfl
@[simp] theorem keySet_dt (s : State) (k : Nibble) : (s.keySet k).dt = s.dt := rfl
@[simp] theorem keySet_st (s : State) (k : Nibble) : (s.keySet k).st = s.st := rfl
@[simp] theorem keySet_i (s : State) (k : Nibble) : (s.keySet k).i = s.i := rfl
@[simp] theorem keySet_pc (s : State) (k : Nibble) : (s.keySet k).pc = s.pc := rfl
@[simp] theorem keySet_stack (s : State) (k : Nibble) : (s.keySet k).stack = s.stack := rfl
@[simp] theorem keySet_sp (s : State) (k : Nibble) : (s.keySet k).sp = s.sp := rfl
@[simp] theorem keySet_fb (s : State) (k : Nibble) : (s.keySet k).fb = s.fb := rfl
@[simp] theorem keySet_key (s : State) (k : Nibble) : (s.keySet k).key = some k := rfl
@[simp] theorem keySet_env (s : State) (k : Nibble) : (s.keySet k).env = s.env := rfl

@[simp] theorem keyClear_mem (s : State) : (s.keyClear).mem = s.mem := rfl
@[simp] theorem keyClear_v (s : State) : (s.keyClear).v = s.v := rfl
@[simp] theorem keyClear_dt (s : State) : (s.keyClear).dt = s.dt := rfl
@[simp] theorem keyClear_st (s : State) : (s.keyClear).st = s.st := rfl
@[simp] theorem keyClear_i (s : State) : (s.keyClear).i = s.i := rfl
@[simp] theorem keyClear_pc (s : State) : (s.keyClear).pc = s.pc := rfl
@[simp] theorem keyClear_stack (s : State) : (s.keyClear).stack = s.stack := rfl
@[simp] theorem keyClear_sp (s : State) : (s.keyClear).sp = s.sp := rfl
@[simp] theorem keyClear_fb (s : State) : (s.keyClear).fb = s.fb := rfl
@[simp] theorem keyClear_key (s : State) : (s.keyClear).key = none := rfl
@[simp] theorem keyClear_env (s : State) : (s.keyClear).env = s.env := rfl

@[simp] theorem timerTick_mem (s : State) : (s.timerTick).mem = s.mem := rfl
@[simp] theorem timerTick_v (s : State) : (s.timerTick).v = s.v := rfl
@[simp] theorem timerTick_dt (s : State) : (s.timerTick).dt = tick s.dt := rfl
@[simp] theorem timerTick_st (s : State) : (s.timerTick).st = tick s.st := rfl
@[simp] theorem timerTick_i (s : State) : (s.timerTick).i = s.i := rfl
@[simp] theorem timerTick_pc (s : State) : (s.timerTick).pc = s.pc := rfl
@[simp] theorem timerTick_stack (s : State) : (s.timerTick).stack = s.stack := rfl
@[simp] theorem timerTick_sp (s : State) : (s.timerTick).sp = s.sp := rfl
@[simp] theorem timerTick_fb (s : State) : (s.timerTick).fb = s.fb := rfl
@[simp] theorem timerTick_key (s : State) : (s.timerTick).key = s.key := rfl
@[simp] theorem timerTick_env (s : State) : (s.timerTick).env = s.env := rfl

@[simp] theorem eventTaken_mem (s : State) : (s.eventTaken).mem = s.mem := rfl
@[simp] theorem eventTaken_v (s : State) : (s.eventTaken).v = s.v := rfl
@[simp] theorem eventTaken_dt (s : State) : (s.eventTaken).dt = s.dt := rfl
@[simp] theorem eventTaken_st (s : State) : (s.eventTaken).st = s.st := rfl
@[simp] theorem eventTaken_i (s : State) : (s.eventTaken).i = s.i := rfl
@[simp] theorem eventTaken_pc (s : State) : (s.eventTaken).pc = s.pc := rfl
@[simp] theorem eventTaken_stack (s : State) : (s.eventTaken).stack = s.stack := rfl
@[simp] theorem eventTaken_sp (s : State) : (s.eventTaken).sp = s.sp := rfl
@[simp] theorem eventTaken_fb (s : State) : (s.eventTaken).fb = s.fb := rfl
@[simp] theorem eventTaken_key (s : State) : (s.eventTaken).key = s.key := rfl
@[simp] theorem eventTaken_env (s : State) : (s.eventTaken).env = { s.env with schedule := s.env.schedule.tail } := rfl

/-! ### Accessors -/

@[simp] theorem getV_setV (s : State) (x y : Reg) (b : Byte) :
    (s.setV x b).getV y = if y = x then b else s.getV y := by
  simp only [State.getV, State.setV, Vector.getElem_set]
  split <;> split <;> simp_all [Fin.ext_iff]

theorem getV_of_v {s t : State} (h : t.v = s.v) (r : Reg) : t.getV r = s.getV r := by
  simp [State.getV, h]

@[simp] theorem getV_jump (s : State) (a : Word) (r : Reg) : (s.jump a).getV r = s.getV r := rfl
@[simp] theorem getV_advance (s : State) (r : Reg) : s.advance.getV r = s.getV r := rfl
@[simp] theorem getV_skipIf (s : State) (c : Bool) (r : Reg) : (s.skipIf c).getV r = s.getV r :=
  getV_of_v (by simp) r
@[simp] theorem getV_rndTaken (s : State) (r : Reg) : s.rndTaken.getV r = s.getV r := getV_of_v (by simp) r
@[simp] theorem getV_push (s : State) (a : Word) (r : Reg) : (s.push a).getV r = s.getV r := rfl
@[simp] theorem getV_pop (s : State) (r : Reg) : s.pop.2.getV r = s.getV r := rfl
@[simp] theorem getV_emit (s : State) (o : Output) (r : Reg) : (s.emit o).getV r = s.getV r := rfl

/-- R80: the flag is what register 0xF holds after the pair of writes, whatever the destination. -/
@[simp] theorem getV_setResultAndFlag (s : State) (x y : Reg) (result flag : Byte) :
    (s.setResultAndFlag x result flag).getV y = if y = 15 then flag else if y = x then result else s.getV y := by
  simp [State.setResultAndFlag, Config.flagReg]

theorem vf_eq (s : State) : s.vf = s.getV 15 := rfl

theorem stackCell_of_stack {s t : State} (h : t.stack = s.stack) (j : Nibble) :
    t.stackCell j = s.stackCell j := by
  simp [State.stackCell, h]

@[simp] theorem stackCell_push (s : State) (a : Word) (j : Nibble) :
    (s.push a).stackCell j = if j = s.sp then a else s.stackCell j := by
  simp only [State.stackCell, State.push, Vector.getElem_set]
  split <;> split <;> simp_all [BitVec.toNat_eq]

@[simp] theorem stackCell_jump (s : State) (a : Word) (j : Nibble) : (s.jump a).stackCell j = s.stackCell j := rfl
@[simp] theorem stackCell_pop (s : State) (j : Nibble) : s.pop.2.stackCell j = s.stackCell j := rfl
@[simp] theorem pop_fst (s : State) : s.pop.1 = s.stackCell (s.sp - 1) := rfl

end Sys2Proof.Machine
end

