-- ==== Sys2Proof/Laws/Memory.lean ====
section
/-! SUPPORT. Memory: a read after a write, runs of cells, and that every operation keeps the canonical form. -/

namespace Sys2Proof.Machine

theorem resetByte_above (a : Nat) (h : 80 ≤ a) : resetByte a = 0 := by
  have hl : glyphBytes.length = 80 := by decide
  simp [resetByte, List.getD, List.getElem?_eq_none (by omega : glyphBytes.length ≤ a)]

/-! ### One cell -/

theorem wf_cons {k : Nat} {b : Byte} {rest : Memory} :
    Memory.wf ((k, b) :: rest) = true ↔
      k < 4096 ∧ b ≠ resetByte k ∧ (∀ c ∈ rest, k < c.1) ∧ Memory.wf rest = true := by
  simp [Memory.wf, and_assoc]

/-- A cell below every listed address reads as its reset contents. -/
theorem read_below (m : Memory) (a : Nat) (h : ∀ c ∈ m, a < c.1) : m.read a = resetByte a := by
  induction m with
  | nil => rfl
  | cons c rest ih =>
    obtain ⟨k, b⟩ := c
    have hk : a < k := h (k, b) (by simp)
    simp only [Memory.read, if_neg (by omega : ¬ k = a)]
    exact ih fun c hc => h c (by simp [hc])

theorem read_unlist_same (m : Memory) (a : Nat) : (m.unlist a).read a = resetByte a := by
  induction m with
  | nil => rfl
  | cons c rest ih =>
    obtain ⟨k, d⟩ := c
    by_cases hk : k = a
    · simpa [Memory.unlist, hk] using ih
    · simpa [Memory.unlist, Memory.read, hk] using ih

theorem read_unlist_other (m : Memory) (a k : Nat) (h : k ≠ a) : (m.unlist a).read k = m.read k := by
  induction m with
  | nil => rfl
  | cons c rest ih =>
    obtain ⟨j, d⟩ := c
    by_cases hj : j = a
    · subst hj; simpa [Memory.unlist, Memory.read, Ne.symm h] using ih
    · simp only [Memory.unlist, List.filter_cons, bne_iff_ne, ne_eq, hj, not_false_eq_true, if_true, Memory.read]
      rw [← ih]; rfl

theorem read_insert_other (m : Memory) (a k : Nat) (b : Byte) (h : k ≠ a) : (m.insert a b).read k = m.read k := by
  induction m with
  | nil => simp [Memory.insert, Memory.read, Ne.symm h]
  | cons c rest ih =>
    obtain ⟨j, d⟩ := c
    unfold Memory.insert
    split
    · simp [Memory.read, Ne.symm h]
    · simp only [Memory.read, ih]

theorem read_insert_same (m : Memory) (a : Nat) (b : Byte) (h : ∀ c ∈ m, c.1 ≠ a) : (m.insert a b).read a = b := by
  induction m with
  | nil => simp [Memory.insert, Memory.read]
  | cons c rest ih =>
    obtain ⟨j, d⟩ := c
    unfold Memory.insert
    split
    · simp [Memory.read]
    · simp only [Memory.read, if_neg (h (j, d) (by simp))]
      exact ih fun c hc => h c (by simp [hc])

theorem mem_unlist {m : Memory} {a : Nat} {c : Host.Cell} : c ∈ m.unlist a ↔ c ∈ m ∧ c.1 ≠ a := by
  simp [Memory.unlist]

theorem mem_insert {m : Memory} {a : Nat} {b : Byte} {c : Host.Cell} (h : c ∈ m.insert a b) : c = (a, b) ∨ c ∈ m := by
  induction m with
  | nil => simpa [Memory.insert] using h
  | cons d rest ih =>
    obtain ⟨j, e⟩ := d
    unfold Memory.insert at h
    split at h
    · simpa using h
    · rcases List.mem_cons.1 h with rfl | h
      · simp
      · exact (ih h).imp_right (List.mem_cons_of_mem _)

theorem read_write_same (m : Memory) (a : Nat) (b : Byte) : (m.write a b).read a = b := by
  unfold Memory.write
  split
  · rename_i hb; rw [read_unlist_same, hb]
  · exact read_insert_same _ _ _ fun c hc => (mem_unlist.1 hc).2

theorem read_write_other (m : Memory) (a k : Nat) (b : Byte) (h : k ≠ a) : (m.write a b).read k = m.read k := by
  unfold Memory.write
  split
  · exact read_unlist_other m a k h
  · rw [read_insert_other _ _ _ _ h, read_unlist_other m a k h]

theorem unlist_keeps_wf (m : Memory) (a : Nat) (h : m.wf = true) : (m.unlist a).wf = true := by
  induction m with
  | nil => rfl
  | cons c rest ih =>
    obtain ⟨k, b⟩ := c
    obtain ⟨hk, hb, hbelow, hrest⟩ := wf_cons.1 h
    by_cases hka : k = a
    · simpa [Memory.unlist, hka] using ih hrest
    · have : Memory.unlist ((k, b) :: rest) a = (k, b) :: Memory.unlist rest a := by simp [Memory.unlist, hka]
      rw [this]
      exact wf_cons.2 ⟨hk, hb, fun c hc => hbelow c (mem_unlist.1 hc).1, ih hrest⟩

theorem insert_keeps_wf (m : Memory) (a : Nat) (b : Byte) (ha : a < 4096) (hb : b ≠ resetByte a)
    (hne : ∀ c ∈ m, c.1 ≠ a) (h : m.wf = true) : (m.insert a b).wf = true := by
  induction m with
  | nil => exact wf_cons.2 ⟨ha, hb, by simp, rfl⟩
  | cons c rest ih =>
    obtain ⟨j, d⟩ := c
    obtain ⟨hj, hd, hbelow, hrest⟩ := wf_cons.1 h
    have hja : j ≠ a := hne (j, d) (by simp)
    unfold Memory.insert
    split
    · rename_i hlt
      refine wf_cons.2 ⟨ha, hb, fun c hc => ?_, h⟩
      rcases List.mem_cons.1 hc with rfl | hc
      · exact hlt
      · exact Nat.lt_trans hlt (hbelow c hc)
    · refine wf_cons.2 ⟨hj, hd, fun c hc => ?_, ih (fun c hc => hne c (by simp [hc])) hrest⟩
      rcases mem_insert hc with rfl | hc
      · simp only; omega
      · exact hbelow c hc

/-- A write of one cell below 4096 keeps the canonical form. -/
theorem write_keeps_wf (m : Memory) (a : Nat) (b : Byte) (ha : a < 4096) (h : m.wf = true) : (m.write a b).wf = true := by
  unfold Memory.write
  split
  · exact unlist_keeps_wf m a h
  · rename_i hb
    exact insert_keeps_wf _ a b ha hb (fun c hc => (mem_unlist.1 hc).2) (unlist_keeps_wf m a h)

/-! ### Runs of cells -/

@[simp] theorem readRun_length (m : Memory) (a n : Nat) : (m.readRun a n).length = n := by
  induction n generalizing a with
  | zero => rfl
  | succ n ih => simp [Memory.readRun, ih]

theorem readRun_getElem? (m : Memory) (a n j : Nat) (h : j < n) : (m.readRun a n)[j]? = some (m.read (a + j)) := by
  induction n generalizing a j with
  | zero => omega
  | succ n ih =>
    cases j with
    | zero => simp [Memory.readRun]
    | succ j => simp only [Memory.readRun, List.getElem?_cons_succ, ih (a + 1) j (by omega)]; congr 2; omega

theorem read_writeRun_outside (m : Memory) (a : Nat) (bytes : List Byte) (k : Nat) (h : k < a ∨ a + bytes.length ≤ k) :
    (m.writeRun a bytes).read k = m.read k := by
  induction bytes generalizing m a with
  | nil => rfl
  | cons b rest ih =>
    simp only [List.length_cons] at h
    rw [Memory.writeRun, ih _ _ (by omega), read_write_other _ _ _ _ (by omega)]

theorem writeRun_keeps_wf (m : Memory) (a : Nat) (bytes : List Byte) (h : a + bytes.length ≤ 4096) (hwf : m.wf = true) :
    (m.writeRun a bytes).wf = true := by
  induction bytes generalizing m a with
  | nil => exact hwf
  | cons b rest ih =>
    simp only [List.length_cons] at h
    exact ih _ _ (by omega) (write_keeps_wf m a b (by omega) hwf)

theorem read_writeRun_inside (m : Memory) (a : Nat) (bytes : List Byte) (j : Nat) (b : Byte) (hj : bytes[j]? = some b) :
    (m.writeRun a bytes).read (a + j) = b := by
  induction bytes generalizing m a j with
  | nil => simp at hj
  | cons c rest ih =>
    cases j with
    | zero =>
      simp only [List.getElem?_cons_zero, Option.some.injEq] at hj
      rw [Memory.writeRun, read_writeRun_outside _ _ _ _ (by omega), Nat.add_zero, read_write_same, hj]
    | succ j =>
      have := ih (m.write a c) (a + 1) j hj
      rwa [Memory.writeRun, show a + (j + 1) = a + 1 + j by omega]

end Sys2Proof.Machine
end

