-- ==== Sys2Proof/Laws/Ops.lean ====
section
/-! SUPPORT. What each shared operation can do, said once: the memory primitives, a store instruction, a range load,
the random source, and frames. -/

namespace Sys2Proof.Machine

theorem startAddr_lt (addr : Word) : startAddr addr < 4096 := Nat.mod_lt _ (by decide)

/-- A flag is 0 or 1 (R12). -/
theorem flagOf_zero_or_one (c : Bool) : flagOf c = 0 ∨ flagOf c = 1 := by cases c <;> simp [flagOf]

/-! ### Operands as numbers (R3: every value is unsigned) -/

@[simp] theorem zextAddr_toNat (nnn : Addr) : (zextAddr nnn).toNat = nnn.toNat := by
  have := nnn.isLt; simp only [zextAddr, BitVec.toNat_setWidth]; omega
@[simp] theorem zextByte_toNat (b : Byte) : (zextByte b).toNat = b.toNat := by
  have := b.isLt; simp only [zextByte, BitVec.toNat_setWidth]; omega
@[simp] theorem zextKey_toNat (k : Nibble) : (zextKey k).toNat = k.toNat := by
  have := k.isLt; simp only [zextKey, BitVec.toNat_setWidth]; omega
@[simp] theorem glyphAddr_toNat (b : Byte) : (glyphAddr b).toNat = b.toNat * 5 := by
  have := b.isLt; simp only [glyphAddr, BitVec.toNat_mul, zextByte_toNat]; simp; omega
@[simp] theorem offsetTarget_toNat (nnn : Addr) (b : Byte) : (offsetTarget nnn b).toNat = nnn.toNat + b.toNat := by
  have := nnn.isLt; have := b.isLt; simp only [offsetTarget, BitVec.toNat_add, zextAddr_toNat, zextByte_toNat]; omega

/-- A key matches when its code is the value of the whole byte (R150). -/
theorem keyMatches_iff (key : Option Nibble) (b : Byte) :
    keyMatches key b = true ↔ ∃ k, key = some k ∧ k.toNat = b.toNat := by
  cases key with
  | none => simp [keyMatches]
  | some k => simp only [keyMatches, beq_iff_eq, Option.some.injEq, exists_eq_left']; rw [BitVec.toNat_eq, zextKey_toNat]

/-! ### Frames -/

theorem same_of_eq {s t : State} (p : Part)
    (hmem : t.mem = s.mem) (hv : t.v = s.v) (hdt : t.dt = s.dt) (hst : t.st = s.st) (hi : t.i = s.i)
    (hstack : t.stack = s.stack) (hsp : t.sp = s.sp) (hfb : t.fb = s.fb) (hkey : t.key = s.key) (henv : t.env = s.env) :
    p.same s t := by
  cases p <;> simp_all [Part.same, State.getV, State.stackCell]

theorem changesOnly_jump (s : State) (a : Word) : changesOnly s (s.jump a) [] :=
  fun p _ => same_of_eq p rfl rfl rfl rfl rfl rfl rfl rfl rfl rfl

theorem changesOnly_skipIf (s : State) (c : Bool) : changesOnly s (s.skipIf c) [] := by
  cases c <;> exact changesOnly_jump s _

theorem changesOnly_setV_advance (s : State) (x : Reg) (b : Byte) : changesOnly s (s.setV x b).advance [.registers] := by
  intro p hp; cases p <;> simp_all [Part.same, State.stackCell]

theorem changesOnly_setResultAndFlag_advance (s : State) (x : Reg) (r f : Byte) :
    changesOnly s (s.setResultAndFlag x r f).advance [.registers] := by
  intro p hp; cases p <;> simp_all [Part.same, State.stackCell, State.setResultAndFlag]

/-! ### `MemRead` (R42) -/

theorem memRead_length (s : State) (addr : Word) (n : Nat) : (s.memRead addr n).length = min n (4096 - startAddr addr) := by
  simp [State.memRead]

theorem memRead_getElem? (s : State) (addr : Word) (n j : Nat) (h : j < min n (4096 - startAddr addr)) :
    (s.memRead addr n)[j]? = some (s.mem.read (startAddr addr + j)) := readRun_getElem? _ _ _ _ h

/-! ### `MemWrite` (R43) -/

/-- A write that is accepted fits, changes memory alone, and puts each byte in its place. -/
theorem memWrite_some {s t : State} {addr : Word} {bytes : List Byte} (h : s.memWrite addr bytes = some t) :
    startAddr addr + bytes.length ≤ 4096 ∧ t = { s with mem := s.mem.writeRun (startAddr addr) bytes } := by
  unfold State.memWrite at h
  split at h
  · cases h
  · cases h; exact ⟨by omega, rfl⟩

theorem memWrite_none {s : State} {addr : Word} {bytes : List Byte} :
    s.memWrite addr bytes = none ↔ 4096 < startAddr addr + bytes.length := by
  unfold State.memWrite
  split <;> simp <;> omega

theorem memWrite_fits {s : State} {addr : Word} {bytes : List Byte} (h : startAddr addr + bytes.length ≤ 4096) :
    s.memWrite addr bytes = some { s with mem := s.mem.writeRun (startAddr addr) bytes } := by
  simp [State.memWrite, Nat.not_lt.2 h]

theorem memWrite_keeps_wf {s t : State} {addr : Word} {bytes : List Byte} (h : s.memWrite addr bytes = some t)
    (hwf : s.mem.wf = true) : t.mem.wf = true := by
  obtain ⟨hfit, rfl⟩ := memWrite_some h
  exact writeRun_keeps_wf _ _ _ hfit hwf

/-- A store instruction: the completed form and the overrun (R123, R124, R193). -/
theorem storeAtI_fits {i : Instr} {bytes : List Byte} {s : State} (h : startAddr s.i + bytes.length ≤ 4096) :
    storeAtI i bytes s = .next { s with mem := s.mem.writeRun (startAddr s.i) bytes, pc := s.pc + 2 } := by
  simp only [storeAtI, memWrite_fits h]; rfl

theorem storeAtI_overruns {i : Instr} {bytes : List Byte} {s : State} (h : 4096 < startAddr s.i + bytes.length) :
    storeAtI i bytes s = .fault (.memWriteOverrun s.pc (encode i)) := by
  simp only [storeAtI, memWrite_none.2 h]; rfl

theorem storeAtI_next {i : Instr} {bytes : List Byte} {s t : State} (h : storeAtI i bytes s = .next t) :
    startAddr s.i + bytes.length ≤ 4096 ∧ t = { s with mem := s.mem.writeRun (startAddr s.i) bytes, pc := s.pc + 2 } := by
  by_cases hf : startAddr s.i + bytes.length ≤ 4096
  · rw [storeAtI_fits hf] at h; cases h; exact ⟨hf, rfl⟩
  · rw [storeAtI_overruns (by omega)] at h; cases h

/-! ### Register ranges (R124, R125) -/

@[simp] theorem regsUpTo_length (s : State) (x : Reg) : (s.regsUpTo x).length = x.val + 1 := by
  simp [State.regsUpTo]

theorem regsUpTo_getElem? (s : State) (x j : Reg) (h : j ≤ x) : (s.regsUpTo x)[j.val]? = some (s.getV j) := by
  have : j.val < x.val + 1 := Nat.lt_succ_of_le h
  simp [State.regsUpTo, List.getElem?_take_of_lt this, State.getV]

/-- What register `k` holds after a range load from register `j` up: its byte if it has one, else what it held. -/
theorem loadRegs_getElem (v : Vector Byte 16) (j : Nat) (bytes : List Byte) (k : Nat) (hk : k < 16) :
    (loadRegs v j bytes)[k] = if j ≤ k then (bytes[k - j]?).getD v[k] else v[k] := by
  induction bytes generalizing v j with
  | nil => simp [loadRegs]
  | cons b rest ih =>
    rw [loadRegs, ih]
    rcases Nat.lt_trichotomy k j with h | h | h
    · simp [Nat.not_le.2 h, Nat.not_le.2 (Nat.lt_succ_of_lt h), (Nat.ne_of_lt h).symm]
    · subst h; simp
    · obtain ⟨d, rfl⟩ := Nat.exists_eq_add_of_lt h
      simp [show j + d + 1 - (j + 1) = d by omega, show j + d + 1 - j = d + 1 by omega,
        show j ≤ j + d + 1 by omega, show ¬ j = j + d + 1 by omega]

/-! ### Timers (R174) -/

theorem tick_toNat (b : Byte) : (tick b).toNat = b.toNat - 1 := by
  unfold tick
  split
  · simp_all
  · rename_i h
    have : b.toNat ≠ 0 := fun h' => h (by apply BitVec.eq_of_toNat_eq; simpa using h')
    have := b.isLt
    rw [BitVec.toNat_sub]; simp; omega

/-! ### The random source (R176) -/

theorem rndTaken_env (s : State) :
    s.rndTaken.env.schedule = s.env.schedule ∧ s.rndTaken.env.outputs = s.env.outputs ∧
    s.rndTaken.env.rndQueue = s.env.rndQueue.tail := by
  unfold State.rndTaken; split <;> simp_all

end Sys2Proof.Machine
end

