-- ==== Sys2Proof/Laws/Display.lean ====
section
/-! SUPPORT. The row blit and the collision count, byte by byte. -/

namespace Sys2Proof.Machine

/-- What one touched byte does: the framebuffer changes at `k` alone, by XOR, and both counts grow by that byte's. -/
theorem touch_fb (t : Blit) (k j : Fin 256) (bits : Byte) :
    (t.touch k bits).fb[j.val] = if j = k then t.fb[j.val] ^^^ bits else t.fb[j.val] := by
  simp only [Blit.touch, Vector.getElem_set]
  split <;> split <;> simp_all [Fin.ext_iff]

@[simp] theorem touch_before (t : Blit) (k : Fin 256) (bits : Byte) :
    (t.touch k bits).before = t.before + popcount t.fb[k.val] := rfl
@[simp] theorem touch_after (t : Blit) (k : Fin 256) (bits : Byte) :
    (t.touch k bits).after = t.after + popcount (t.fb[k.val] ^^^ bits) := rfl

/-- What a row drawn at column `x0` XORs into byte `b` of its screen row (R142). -/
def rowBits (x0 : Fin 64) (r : Byte) (b : Fin 8) : Byte :=
  if b = firstByte x0 then leftPart r (x0.val % 8)
  else if x0.val % 8 ≠ 0 ∧ b.val = (firstByte x0).val + 1 then rightPart r (x0.val % 8) else 0

theorem fbIndex_inj {y y' : Fin 32} {b b' : Fin 8} : fbIndex y b = fbIndex y' b' ↔ y = y' ∧ b = b' := by
  simp only [fbIndex, Fin.ext_iff]; omega

/-- Every byte index is that of one row and one byte of it. -/
theorem exists_fbIndex (k : Fin 256) : ∃ y b, k = fbIndex y b :=
  ⟨⟨k.val / 8, by omega⟩, ⟨k.val % 8, by omega⟩, by simp only [fbIndex, Fin.ext_iff]; omega⟩

theorem drawRow_fb (t : Blit) (x0 : Fin 64) (y y' : Fin 32) (r : Byte) (b : Fin 8) :
    (t.drawRow x0 y r).fb[(fbIndex y' b).val] =
      if y' = y then t.fb[(fbIndex y' b).val] ^^^ rowBits x0 r b else t.fb[(fbIndex y' b).val] := by
  unfold Blit.drawRow
  simp only
  split
  · rename_i h
    simp only [touch_fb, fbIndex_inj]
    by_cases hy : y' = y
    · subst hy
      rcases Decidable.em (b = firstByte x0) with hb | hb
      · subst hb
        have : ¬ firstByte x0 = ⟨(firstByte x0).val + 1, by omega⟩ := by simp [Fin.ext_iff]
        simp [rowBits, this]
      · have hiff : b = ⟨(firstByte x0).val + 1, by omega⟩ ↔ b.val = (firstByte x0).val + 1 := by simp [Fin.ext_iff]
        simp only [rowBits, hb, hiff, h.1, ne_eq, not_false_eq_true, true_and, and_false, if_false, if_true]
        split <;> simp
    · simp [hy]
  · rename_i h
    simp only [touch_fb, fbIndex_inj]
    by_cases hy : y' = y
    · subst hy
      rcases Decidable.em (b = firstByte x0) with hb | hb
      · subst hb; simp [rowBits]
      · have : ¬ (x0.val % 8 ≠ 0 ∧ b.val = (firstByte x0).val + 1) := by
          rintro ⟨h1, h2⟩; exact h ⟨h1, by omega⟩
        simp [rowBits, hb, this]
    · simp [hy]

/-- What a whole draw from screen row `y` down XORs into byte `b` of row `y'`: the sprite row for it, if there is
one (rows past 31 have no `y'`). -/
theorem drawRows_fb (t : Blit) (x0 : Fin 64) (y : Nat) (rows : List Byte) (y' : Fin 32) (b : Fin 8) :
    (t.drawRows x0 y rows).fb[(fbIndex y' b).val] =
      if y ≤ y'.val then t.fb[(fbIndex y' b).val] ^^^ ((rows[y'.val - y]?).map (rowBits x0 · b)).getD 0
      else t.fb[(fbIndex y' b).val] := by
  induction rows generalizing t y with
  | nil => simp [Blit.drawRows]
  | cons r rest ih =>
    rw [Blit.drawRows, ih]
    by_cases hy : y < 32
    · rw [dif_pos hy]
      rcases Nat.lt_trichotomy y'.val y with h | h | h
      · simp [Nat.not_le.2 h, Nat.not_le.2 (Nat.lt_succ_of_lt h), drawRow_fb, Fin.ext_iff, Nat.ne_of_lt h]
      · have : y' = ⟨y, hy⟩ := Fin.ext h
        subst this; simp [drawRow_fb]
      · obtain ⟨d, hd⟩ := Nat.exists_eq_add_of_lt h
        simp [hd, drawRow_fb, Fin.ext_iff, show y + d + 1 - (y + 1) = d by omega, show y + d + 1 - y = d + 1 by omega,
          show y ≤ y + d + 1 by omega, show ¬ y + d + 1 = y by omega]
    · have := y'.isLt
      rw [dif_neg hy]
      simp [show ¬ y ≤ y'.val by omega, show ¬ y + 1 ≤ y'.val by omega]

/-! ### Pixels (R20, R142) -/

/-- The bit a drawn row has at a pixel's place in its byte: the sprite's bit for that column, if it covers it. -/
theorem rowBits_bit (x0 : Fin 64) (r : Byte) (px : Fin 64) :
    (rowBits x0 r (firstByte px)).getLsbD (7 - px.val % 8) =
      (decide (x0.val ≤ px.val ∧ px.val < x0.val + 8) && r.getLsbD (7 - (px.val - x0.val))) := by
  unfold rowBits
  have hx := x0.isLt; have hp := px.isLt
  split
  · rename_i h
    have h : px.val / 8 = x0.val / 8 := by simpa [firstByte] using h
    simp only [leftPart, BitVec.getLsbD_ushiftRight]
    by_cases hle : x0.val ≤ px.val
    · rw [decide_eq_true (by omega), Bool.true_and]; congr 1; omega
    · rw [decide_eq_false (by omega), Bool.false_and]
      apply BitVec.getLsbD_of_ge; omega
  · rename_i h0
    have h0 : ¬ px.val / 8 = x0.val / 8 := by simpa [firstByte] using h0
    split
    · rename_i h
      simp only [firstByte] at h
      obtain ⟨h1, h2⟩ := h
      simp only [rightPart, BitVec.getLsbD_shiftLeft]
      have e1 : (7 - px.val % 8 < 8) = True := by simp; omega
      by_cases hle : px.val < x0.val + 8
      · have e2 : (7 - px.val % 8 < 8 - x0.val % 8) = False := by simp; omega
        have e3 : (x0.val ≤ px.val ∧ px.val < x0.val + 8) = True := by simp; omega
        simp only [e1, e2, e3]; simp [-BitVec.getLsbD_eq_getElem]; congr 1; omega
      · have e2 : (7 - px.val % 8 < 8 - x0.val % 8) = True := by simp; omega
        have e3 : (x0.val ≤ px.val ∧ px.val < x0.val + 8) = False := by simp; omega
        simp only [e1, e2, e3]; simp
    · rename_i h
      simp only [firstByte] at h
      rw [decide_eq_false (by omega), Bool.false_and]; simp

/-! ### Counts (R143) -/

theorem popcount_zero : popcount 0 = 0 := by decide
theorem fb_getD_fin (fb : Vector Byte 256) (k : Fin 256) : fb.toList.getD k.val 0 = fb[k.val] := by
  simp [List.getD]
theorem bitCount_append (fb) (l l' : List Nat) : bitCount fb (l ++ l') = bitCount fb l + bitCount fb l' := by
  simp [bitCount]
/-- The bytes one sprite row touches (R142). -/
def touchedRow (x0 y : Nat) : List Nat :=
  if y < 32 then
      (if x0 % 8 ≠ 0 ∧ x0 / 8 ≤ 6 then [y * 8 + x0 / 8, y * 8 + x0 / 8 + 1]
       else [y * 8 + x0 / 8])
    else []
theorem touchedBytes_succ (x0 y n : Nat) : touchedBytes x0 y (n+1) = touchedRow x0 y ++ touchedBytes x0 (y+1) n := by
  simp only [touchedBytes, List.range_succ_eq_map, List.flatMap_cons, List.flatMap_map, touchedRow, Nat.add_zero]
  congr 2; funext r; rw [show y + r.succ = y + 1 + r by omega]
theorem touchedBytes_bounds (x0 y n k : Nat) (h : k ∈ touchedBytes x0 y n) : y * 8 ≤ k ∧ k < 256 ∨ 64 ≤ x0 := by
  simp only [touchedBytes, List.mem_flatMap] at h
  obtain ⟨r, _, h⟩ := h
  split at h
  · split at h <;> simp at h <;> omega
  · simp at h
theorem bitCount_congr (fb fb' : Vector Byte 256) (l : List Nat) (h : ∀ k ∈ l, fb.toList.getD k 0 = fb'.toList.getD k 0) : bitCount fb l = bitCount fb' l := by
  simp only [bitCount]; congr 1; apply List.map_congr_left; intro k hk; rw [h k hk]
/-- One row adds to both counts what its touched bytes hold before and after it. -/
theorem drawRow_counts (t : Blit) (x0 : Fin 64) (y : Fin 32) (r : Byte) :
    (t.drawRow x0 y r).before = t.before + bitCount t.fb (touchedRow x0.val y.val) ∧
    (t.drawRow x0 y r).after = t.after + bitCount (t.drawRow x0 y r).fb (touchedRow x0.val y.val) := by
  have e0 : y.val * 8 + x0.val / 8 = (fbIndex y (firstByte x0)).val := rfl
  unfold Blit.drawRow
  simp only
  split
  · rename_i h
    have e1 : y.val * 8 + x0.val / 8 + 1 = (fbIndex y ⟨(firstByte x0).val + 1, by omega⟩).val := rfl
    have h' : x0.val % 8 ≠ 0 ∧ x0.val / 8 ≤ 6 := h
    have hne : ¬ (fbIndex y (firstByte x0) = fbIndex y ⟨(firstByte x0).val + 1, by omega⟩) := by
      simp [fbIndex, Fin.ext_iff]
    rw [touchedRow, if_pos y.isLt, if_pos h', e1, e0]
    have hne' := Ne.symm hne
    simp only [bitCount, List.map_cons, List.map_nil, List.sum_cons, List.sum_nil, fb_getD_fin, touch_fb, touch_before, touch_after, hne, hne', if_true, if_false, Nat.add_zero, Nat.add_assoc, and_self]
  · rename_i h
    have h' : ¬ (x0.val % 8 ≠ 0 ∧ x0.val / 8 ≤ 6) := h
    rw [touchedRow, if_pos y.isLt, if_neg h', e0]
    simp only [bitCount, List.map_cons, List.map_nil, List.sum_cons, List.sum_nil, fb_getD_fin, touch_fb, touch_before, touch_after, if_true, Nat.add_zero, and_self]
theorem fb_getD_index (fb : Vector Byte 256) (k : Nat) (hk : k < 256) : fb.toList.getD k 0 = fb[(fbIndex ⟨k/8, by omega⟩ ⟨k%8, by omega⟩).val] := by
  rw [← fb_getD_fin]; congr 1; simp [fbIndex]; omega
/-- The running counts of a draw are the bit counts of all touched bytes before and after it, since no byte is touched
by two rows. -/
theorem drawRows_counts (rows : List Byte) : ∀ (t : Blit) (x0 : Fin 64) (y : Nat),
    (t.drawRows x0 y rows).before = t.before + bitCount t.fb (touchedBytes x0.val y rows.length) ∧
    (t.drawRows x0 y rows).after = t.after + bitCount (t.drawRows x0 y rows).fb (touchedBytes x0.val y rows.length) := by
  induction rows with
  | nil => intro t x0 y; simp [Blit.drawRows, touchedBytes, bitCount]
  | cons r rest ih =>
    intro t x0 y
    rw [Blit.drawRows, List.length_cons, touchedBytes_succ, bitCount_append, bitCount_append]
    obtain ⟨h1, h2⟩ := ih (if h : y < 32 then t.drawRow x0 ⟨y, h⟩ r else t) x0 (y+1)
    rw [h1, h2]
    by_cases hy : y < 32
    · simp only [dif_pos hy]
      obtain ⟨h3, h4⟩ := drawRow_counts t x0 ⟨y, hy⟩ r
      dsimp only at h3 h4
      rw [h3, h4]
      have hx := x0.isLt
      have c1 : bitCount (t.drawRow x0 ⟨y, hy⟩ r).fb (touchedBytes x0.val (y+1) rest.length) = bitCount t.fb (touchedBytes x0.val (y+1) rest.length) := by
        apply bitCount_congr; intro k hk
        have := touchedBytes_bounds _ _ _ _ hk
        rw [fb_getD_index _ _ (by omega), fb_getD_index _ _ (by omega), drawRow_fb, if_neg]
        simp [Fin.ext_iff]; omega
      have c2 : bitCount ((t.drawRow x0 ⟨y, hy⟩ r).drawRows x0 (y+1) rest).fb (touchedRow x0.val y) = bitCount (t.drawRow x0 ⟨y, hy⟩ r).fb (touchedRow x0.val y) := by
        apply bitCount_congr; intro k hk
        have hk' : k / 8 = y ∧ k < 256 := by
          rw [touchedRow, if_pos hy] at hk; split at hk <;> simp at hk <;> omega
        rw [fb_getD_index _ _ hk'.2, fb_getD_index _ _ hk'.2, drawRows_fb, if_neg]
        simp; omega
      rw [c1, c2]; constructor <;> omega
    · simp only [dif_neg hy]
      simp [touchedRow, hy, bitCount]
theorem memRead_rows (s : State) (n : Fin 16) : (s.memRead s.i n.val).length = rowsRead s n := by
  rw [memRead_length]; rfl

/-- A pixel the sprite sets lies in a touched byte. -/
theorem spriteBit_touched (s : State) (x0 : Fin 64) (y0 : Fin 32) (n) (px : Fin 64) (py : Fin 32) (h : spriteBit s x0.val y0.val n px py = true) :
  (fbIndex py (firstByte px)).val ∈ touchedBytes x0.val y0.val (rowsRead s n) := by
  simp only [spriteBit, Bool.and_eq_true, decide_eq_true_eq] at h
  obtain ⟨⟨h1, h2, h3, h4⟩, _⟩ := h
  simp only [touchedBytes, List.mem_flatMap, List.mem_range]
  have := py.isLt; have := px.isLt
  refine ⟨py.val - y0.val, by omega, ?_⟩
  rw [if_pos (by omega), show y0.val + (py.val - y0.val) = py.val by omega]
  simp only [fbIndex, firstByte]
  split <;> simp <;> omega
theorem popcount_pos (b : Byte) (j) (hj : j < 8) (h : b.getLsbD j = true) : 0 < popcount b := by
  simp only [popcount]; rw [List.countP_pos_iff]; exact ⟨j, by simp [hj], h⟩
end Sys2Proof.Machine
end

