-- ==== Sys2Proof/Laws/PerInstr.lean ====
section
/-! SUPPORT. Per instruction: its word selects its own row of spec/opcode_table.json (the match and mask of the row,
30_encoding.md section 3), whatever its operands. -/

namespace Sys2Proof.Laws.TableRow

/-- The row's fixed bits as numbers: `FAM`, and the low bits the mask covers as a modulus and a residue (mask 0xF000
covers none, 0xF00F the field `N`, 0xF0FF the field `KK`, 0xFFFF all). -/
def row : Instr → Nat × Nat × Nat
  | .cls => (0x0, 0x1000, 0xe0)
  | .ret => (0x0, 0x1000, 0xee)
  | .sys _ => (0x0, 0x1, 0x0)
  | .jp _ => (0x1, 0x1, 0x0)
  | .call _ => (0x2, 0x1, 0x0)
  | .seVxKk _ _ => (0x3, 0x1, 0x0)
  | .sneVxKk _ _ => (0x4, 0x1, 0x0)
  | .seVxVy _ _ => (0x5, 0x10, 0x0)
  | .ldVxKk _ _ => (0x6, 0x1, 0x0)
  | .addVxKk _ _ => (0x7, 0x1, 0x0)
  | .ldVxVy _ _ => (0x8, 0x10, 0x0)
  | .or _ _ => (0x8, 0x10, 0x1)
  | .and _ _ => (0x8, 0x10, 0x2)
  | .xor _ _ => (0x8, 0x10, 0x3)
  | .addVxVy _ _ => (0x8, 0x10, 0x4)
  | .sub _ _ => (0x8, 0x10, 0x5)
  | .shr _ => (0x8, 0x10, 0x6)
  | .subn _ _ => (0x8, 0x10, 0x7)
  | .shl _ => (0x8, 0x10, 0xe)
  | .sneVxVy _ _ => (0x9, 0x10, 0x0)
  | .ldINnn _ => (0xa, 0x1, 0x0)
  | .jpV0 _ => (0xb, 0x1, 0x0)
  | .rnd _ _ => (0xc, 0x1, 0x0)
  | .drw _ _ _ => (0xd, 0x1, 0x0)
  | .skp _ => (0xe, 0x100, 0x9e)
  | .sknp _ => (0xe, 0x100, 0xa1)
  | .ldVxDt _ => (0xf, 0x100, 0x7)
  | .ldVxK _ => (0xf, 0x100, 0xa)
  | .ldDtVx _ => (0xf, 0x100, 0x15)
  | .ldStVx _ => (0xf, 0x100, 0x18)
  | .addIVx _ => (0xf, 0x100, 0x1e)
  | .ldFVx _ => (0xf, 0x100, 0x29)
  | .ldBVx _ => (0xf, 0x100, 0x33)
  | .ldMiVx _ => (0xf, 0x100, 0x55)
  | .ldVxMi _ => (0xf, 0x100, 0x65)

/-- The word of `i` has the fixed bits of the row of `i`. -/
def Statement (i : Instr) : Prop :=
  (encode i).toNat / 0x1000 = (row i).1 ∧ (encode i).toNat % (row i).2.1 = (row i).2.2

theorem cls : Statement .cls := ⟨by decide, by decide⟩
theorem ret : Statement .ret := ⟨by decide, by decide⟩
theorem sys (nnn : Addr) : Statement (.sys nnn) := by
  have := nnn.isLt; simp only [Statement, row, encode, encodeNNN_toNat]; simp; omega
theorem jp (nnn : Addr) : Statement (.jp nnn) := by
  have := nnn.isLt; simp only [Statement, row, encode, encodeNNN_toNat]; simp; omega
theorem call (nnn : Addr) : Statement (.call nnn) := by
  have := nnn.isLt; simp only [Statement, row, encode, encodeNNN_toNat]; simp; omega
theorem seVxKk (x : Reg) (kk : Byte) : Statement (.seVxKk x kk) := by
  have := kk.isLt; simp only [Statement, row, encode, encodeXKK_toNat]; simp; omega
theorem sneVxKk (x : Reg) (kk : Byte) : Statement (.sneVxKk x kk) := by
  have := kk.isLt; simp only [Statement, row, encode, encodeXKK_toNat]; simp; omega
theorem seVxVy (x y : Reg) : Statement (.seVxVy x y) := by
  simp only [Statement, row, encode, encodeXYN_toNat]; simp; omega
theorem ldVxKk (x : Reg) (kk : Byte) : Statement (.ldVxKk x kk) := by
  have := kk.isLt; simp only [Statement, row, encode, encodeXKK_toNat]; simp; omega
theorem addVxKk (x : Reg) (kk : Byte) : Statement (.addVxKk x kk) := by
  have := kk.isLt; simp only [Statement, row, encode, encodeXKK_toNat]; simp; omega
theorem ldVxVy (x y : Reg) : Statement (.ldVxVy x y) := by
  simp only [Statement, row, encode, encodeXYN_toNat]; simp; omega
theorem or (x y : Reg) : Statement (.or x y) := by
  simp only [Statement, row, encode, encodeXYN_toNat]; simp; omega
theorem and (x y : Reg) : Statement (.and x y) := by
  simp only [Statement, row, encode, encodeXYN_toNat]; simp; omega
theorem xor (x y : Reg) : Statement (.xor x y) := by
  simp only [Statement, row, encode, encodeXYN_toNat]; simp; omega
theorem addVxVy (x y : Reg) : Statement (.addVxVy x y) := by
  simp only [Statement, row, encode, encodeXYN_toNat]; simp; omega
theorem sub (x y : Reg) : Statement (.sub x y) := by
  simp only [Statement, row, encode, encodeXYN_toNat]; simp; omega
theorem shr (x : Reg) : Statement (.shr x) := by
  simp only [Statement, row, encode, encodeXYN_toNat]; simp; omega
theorem subn (x y : Reg) : Statement (.subn x y) := by
  simp only [Statement, row, encode, encodeXYN_toNat]; simp; omega
theorem shl (x : Reg) : Statement (.shl x) := by
  simp only [Statement, row, encode, encodeXYN_toNat]; simp; omega
theorem sneVxVy (x y : Reg) : Statement (.sneVxVy x y) := by
  simp only [Statement, row, encode, encodeXYN_toNat]; simp; omega
theorem ldINnn (nnn : Addr) : Statement (.ldINnn nnn) := by
  have := nnn.isLt; simp only [Statement, row, encode, encodeNNN_toNat]; simp; omega
theorem jpV0 (nnn : Addr) : Statement (.jpV0 nnn) := by
  have := nnn.isLt; simp only [Statement, row, encode, encodeNNN_toNat]; simp; omega
theorem rnd (x : Reg) (kk : Byte) : Statement (.rnd x kk) := by
  have := kk.isLt; simp only [Statement, row, encode, encodeXKK_toNat]; simp; omega
theorem drw (x y : Reg) (n : Fin 16) : Statement (.drw x y n) := by
  simp only [Statement, row, encode, encodeXYN_toNat]; simp; omega
theorem skp (x : Reg) : Statement (.skp x) := by
  simp only [Statement, row, encode, encodeXKK_toNat]; simp; omega
theorem sknp (x : Reg) : Statement (.sknp x) := by
  simp only [Statement, row, encode, encodeXKK_toNat]; simp; omega
theorem ldVxDt (x : Reg) : Statement (.ldVxDt x) := by
  simp only [Statement, row, encode, encodeXKK_toNat]; simp; omega
theorem ldVxK (x : Reg) : Statement (.ldVxK x) := by
  simp only [Statement, row, encode, encodeXKK_toNat]; simp; omega
theorem ldDtVx (x : Reg) : Statement (.ldDtVx x) := by
  simp only [Statement, row, encode, encodeXKK_toNat]; simp; omega
theorem ldStVx (x : Reg) : Statement (.ldStVx x) := by
  simp only [Statement, row, encode, encodeXKK_toNat]; simp; omega
theorem addIVx (x : Reg) : Statement (.addIVx x) := by
  simp only [Statement, row, encode, encodeXKK_toNat]; simp; omega
theorem ldFVx (x : Reg) : Statement (.ldFVx x) := by
  simp only [Statement, row, encode, encodeXKK_toNat]; simp; omega
theorem ldBVx (x : Reg) : Statement (.ldBVx x) := by
  simp only [Statement, row, encode, encodeXKK_toNat]; simp; omega
theorem ldMiVx (x : Reg) : Statement (.ldMiVx x) := by
  simp only [Statement, row, encode, encodeXKK_toNat]; simp; omega
theorem ldVxMi (x : Reg) : Statement (.ldVxMi x) := by
  simp only [Statement, row, encode, encodeXKK_toNat]; simp; omega

end Sys2Proof.Laws.TableRow
end

