-- ==== Sys2Proof/Laws/Step.lean ====
section
/-! SUPPORT. What a step can do, said once: an event of the environment, or a fetched and decoded instruction run by
`exec`, or one of the faults. -/

namespace Sys2Proof.Machine

theorem step_of_empty_schedule {s : State} (h : s.env.schedule = []) : step s = stepCore s := by
  obtain ⟨mem, v, dt, st, i, pc, stack, sp, fb, key, ⟨sch, q, d, o⟩⟩ := s
  cases h; rfl

theorem step_of_schedule {s : State} {e : Event} {rest : List Event} (h : s.env.schedule = e :: rest) :
    step s = perform e { s with env := { s.env with schedule := rest } } := by
  simp [step, State.nextEvent, State.eventTaken, h]

/-- A step whose next event is `step`, scheduled or the driver's own, is the core's step with that event taken. -/
theorem step_of_nextEvent {s : State} (h : s.nextEvent = .step) : step s = stepCore s.eventTaken := by
  simp only [step, h, perform]

@[simp] theorem eventTaken_of_empty {s : State} (h : s.env.schedule = []) : s.eventTaken = s := by
  obtain ⟨mem, v, dt, st, i, pc, stack, sp, fb, key, ⟨sch, q, d, o⟩⟩ := s
  cases h; rfl

@[simp] theorem eventTaken_wordAtPc (s : State) : s.eventTaken.wordAtPc = s.wordAtPc := rfl

/-- The two-byte fetch, or the short one at the last cell (R61). -/
theorem fetch_two {s : State} (h : s.pc.toNat % 4096 ≠ 4095) :
    s.fetch = [s.mem.read (s.pc.toNat % 4096), s.mem.read (s.pc.toNat % 4096 + 1)] := by
  have hm : min 2 (4096 - startAddr s.pc) = 2 := by
    have : startAddr s.pc = s.pc.toNat % 4096 := rfl
    omega
  simp only [State.fetch, State.memRead, hm]; rfl

theorem fetch_short {s : State} (h : s.pc.toNat % 4096 = 4095) : s.fetch = [s.mem.read 4095] := by
  simp [State.fetch, State.memRead, startAddr, h, Memory.readRun]

theorem stepCore_of_decode {s : State} {i : Instr} (h : s.pc.toNat % 4096 ≠ 4095) (hd : decodeWord s.wordAtPc = .ok i) :
    stepCore s = exec i s := by
  simp only [stepCore, fetch_two h, decode]
  rw [show wordOfBytes _ _ = s.wordAtPc from rfl, hd]

theorem stepCore_of_illegal {s : State} {why : Illegal} (h : s.pc.toNat % 4096 ≠ 4095)
    (hd : decodeWord s.wordAtPc = .error why) : stepCore s = .fault (.illegalInstruction s.pc s.wordAtPc) := by
  simp only [stepCore, fetch_two h, decode]
  rw [show wordOfBytes _ _ = s.wordAtPc from rfl, hd]

theorem stepCore_short {s : State} (h : s.pc.toNat % 4096 = 4095) :
    stepCore s = .fault (.fetchFault s.pc [s.mem.read 4095]) := by
  simp only [stepCore, fetch_short h, decode]

/-- The core's step is one of three things. -/
theorem stepCore_cases (s : State) :
    (s.pc.toNat % 4096 = 4095 ∧ stepCore s = .fault (.fetchFault s.pc [s.mem.read 4095])) ∨
    (s.pc.toNat % 4096 ≠ 4095 ∧ ∃ why, decodeWord s.wordAtPc = .error why ∧
      stepCore s = .fault (.illegalInstruction s.pc s.wordAtPc)) ∨
    (s.pc.toNat % 4096 ≠ 4095 ∧ ∃ i, decodeWord s.wordAtPc = .ok i ∧ stepCore s = exec i s) := by
  by_cases h : s.pc.toNat % 4096 = 4095
  · exact .inl ⟨h, stepCore_short h⟩
  · cases hd : decodeWord s.wordAtPc with
    | error why => exact .inr (.inl ⟨h, why, rfl, stepCore_of_illegal h hd⟩)
    | ok i => exact .inr (.inr ⟨h, i, rfl, stepCore_of_decode h hd⟩)

/-- An instruction keeps the canonical form of memory; only the two stores touch memory at all. -/
theorem exec_keeps_wf {i : Instr} {s t : State} (h : exec i s = .next t) (hwf : s.mem.wf = true) : t.mem.wf = true := by
  have store : ∀ bytes, storeAtI i bytes s = .next t → t.mem.wf = true := fun bytes hs => by
    obtain ⟨hf, rfl⟩ := storeAtI_next hs; exact writeRun_keeps_wf _ _ _ hf hwf
  cases i
  case ldBVx x => exact store _ h
  case ldMiVx x => exact store _ h
  case ldVxK x =>
    simp only [exec, execLdVxK] at h
    split at h <;> cases h <;> simpa using hwf
  case rnd x kk => cases h; simpa using hwf
  all_goals (cases h; first | exact hwf | simpa using hwf)

/-- No instruction refuses. -/
theorem exec_not_refused (i : Instr) (s : State) (r : Refusal) : exec i s ≠ .refused r := by
  cases i
  case ldVxK x => simp only [exec, execLdVxK]; split <;> simp
  case ldBVx x => simp only [exec, execLdBVx, storeAtI]; split <;> simp [raiseOverrun]
  case ldMiVx x => simp only [exec, execLdMiVx, storeAtI]; split <;> simp [raiseOverrun]
  all_goals (intro h; cases h)

/-- An instruction faults only as a store that overruns (R190, R193). -/
theorem exec_fault (i : Instr) (s : State) (f : Fault) (h : exec i s = .fault f) :
    f = .memWriteOverrun s.pc (encode i) ∧ 0 < storeLength i ∧ ¬ storeFits i s := by
  cases i
  case ldVxK x => simp only [exec, execLdVxK] at h; split at h <;> cases h
  case ldBVx x =>
    by_cases hf : startAddr s.i + (bcdDigits (s.getV x)).length ≤ 4096
    · simp only [exec, execLdBVx, storeAtI_fits hf] at h; cases h
    · simp only [exec, execLdBVx, storeAtI_overruns (Nat.not_le.1 hf)] at h; cases h; exact ⟨rfl, by simp [storeLength], hf⟩
  case ldMiVx x =>
    by_cases hf : startAddr s.i + (s.regsUpTo x).length ≤ 4096
    · simp only [exec, execLdMiVx, storeAtI_fits hf] at h; cases h
    · simp only [exec, execLdMiVx, storeAtI_overruns (Nat.not_le.1 hf)] at h; cases h; exact ⟨rfl, by simp [storeLength], by simpa [storeFits, storeLength, startAddr] using hf⟩
  all_goals cases h

end Sys2Proof.Machine
end

