-- ==== Sys2Proof/Tests/Slice0.lean ====
section
/-! SUPPORT. The model's own tests. Expected values come from spec/95_test_vectors.md (the vector is named) or from
the rule named; the words are written out from the map of spec/30_encoding.md section 3. The last part shows, for each
statement with hypotheses, a state and operands that meet all of them. -/

namespace Sys2Proof.Tests
open Sys2Proof.Machine

/-! ### Helpers -/

/-- Registers set one after another, over a state. -/
def withRegs (l : List (Reg × Byte)) (s : State) : State := l.foldl (fun t p => t.setV p.1 p.2) s

/-- Memory bytes stored from an address up, over a state. -/
def withBytes (a : Nat) (bytes : List Byte) (s : State) : State := { s with mem := s.mem.writeRun a bytes }

/-- One step that fetches the word `w` completes, in a state that passes `p`. -/
def runs (w : Nat) (s : State) (p : State → Bool) : Bool :=
  match step (s.withFetchWord 16 w) with
  | .next t => p t
  | _ => false

/-- One step that fetches the word `w` ends with the fault `f`. -/
def faults (w : Nat) (s : State) (f : Fault) : Bool :=
  match step (s.withFetchWord 16 w) with
  | .fault g => g == f
  | _ => false

/-- One step from `s` completes, in a state that passes `p`. -/
def steps (s : State) (p : State → Bool) : Bool :=
  match step s with
  | .next t => p t
  | _ => false

/-- Reset, with these registers. -/
def regs (l : List (Reg × Byte)) : State := withRegs l State.reset

/-- The state with this schedule. -/
def withSchedule (l : List Event) (s : State) : State := { s with env := { s.env with schedule := l } }

/-- Reset with this schedule. -/
def scheduled (l : List Event) : State := withSchedule l State.reset

/-- One word placed at 0x200 of the reset state. -/
def atReset (w : Nat) : State := State.reset.withFetchWord 16 w

/-! ### WellFormed smoke: the check refuses each ill-formed term (R66) -/

theorem test_wf_refuses_sys_cls : Instr.wf (.sys 0x0E0) = false := by decide
theorem test_wf_refuses_sys_ret : Instr.wf (.sys 0x0EE) = false := by decide
theorem test_wf_accepts_sys : Instr.wf (.sys 0x0E1) = true := by decide

/-! ### Decoding: a word written out for every row of the map -/

theorem test_decode_control :
    [0x00E0, 0x00EE, 0x0123, 0x1123, 0x230C, 0x3A07, 0x4A07, 0x5120, 0x9120, 0xB300].map (decodeTableWord 16) =
    [some .cls, some .ret, some (.sys 0x123), some (.jp 0x123), some (.call 0x30C), some (.seVxKk 10 7),
     some (.sneVxKk 10 7), some (.seVxVy 1 2), some (.sneVxVy 1 2), some (.jpV0 0x300)] := by decide

theorem test_decode_alu :
    [0x6A2C, 0x7305, 0x8120, 0x8121, 0x8122, 0x8123, 0x8014, 0x8015, 0x80B6, 0x8AB7, 0x810E, 0xC30F].map
      (decodeTableWord 16) =
    [some (.ldVxKk 10 0x2C), some (.addVxKk 3 5), some (.ldVxVy 1 2), some (.or 1 2), some (.and 1 2), some (.xor 1 2),
     some (.addVxVy 0 1), some (.sub 0 1), some (.shr 0), some (.subn 10 11), some (.shl 1), some (.rnd 3 0x0F)] := by
  decide

theorem test_decode_memory_display_keys :
    [0xA2F0, 0xF21E, 0xF029, 0xF033, 0xF255, 0xF165, 0xD345, 0xE39E, 0xEFA1, 0xF107, 0xF50A, 0xF115, 0xF218].map
      (decodeTableWord 16) =
    [some (.ldINnn 0x2F0), some (.addIVx 2), some (.ldFVx 0), some (.ldBVx 0), some (.ldMiVx 2), some (.ldVxMi 1),
     some (.drw 3 4 5), some (.skp 3), some (.sknp 15), some (.ldVxDt 1), some (.ldVxK 5), some (.ldDtVx 1),
     some (.ldStVx 2)] := by decide

/-- E5, B16, K7, K16 and the strict families (R71). -/
theorem test_decode_illegal :
    [0x8AB8, 0x5121, 0x9121, 0xE39F, 0xF0FF, 0x800F].map (decodeTableWord 16) = [none, none, none, none, none, none] := by
  decide

/-! ### Register and ALU family (vectors A) -/

theorem test_ld_imm_A2 : runs 0x6F05 (regs [(15, 1)]) (fun t => t.vf == 5 && t.pc == 0x202) = true := by decide
theorem test_add_imm_A3 : runs 0x7305 (regs [(3, 0xFE)]) (fun t => t.getV 3 == 3 && t.vf == 0) = true := by decide
theorem test_ld_reg_A5 : runs 0x8120 (regs [(2, 0x77)]) (fun t => t.getV 1 == 0x77 && t.getV 2 == 0x77) = true := by decide
theorem test_or_A6 : runs 0x8121 (regs [(1, 0x0F), (2, 0xF0), (15, 1)]) (fun t => t.getV 1 == 0xFF && t.vf == 1) = true := by
  decide
theorem test_and_A7 : runs 0x8122 (regs [(1, 0x3C), (2, 0x0F), (15, 1)]) (fun t => t.getV 1 == 0x0C && t.vf == 1) = true := by
  decide
theorem test_xor_A8 : runs 0x8123 (regs [(1, 0xFF), (2, 0x0F), (15, 1)]) (fun t => t.getV 1 == 0xF0 && t.vf == 1) = true := by
  decide
theorem test_add_A10 : runs 0x8014 (regs [(0, 0xC8), (1, 0x64)]) (fun t => t.getV 0 == 0x2C && t.vf == 1) = true := by decide
theorem test_add_flag_last_A14 : runs 0x8F14 (regs [(15, 0xFF), (1, 2)]) (fun t => t.vf == 1) = true := by decide
theorem test_sub_A16 : runs 0x8015 (regs [(0, 5), (1, 7)]) (fun t => t.getV 0 == 0xFE && t.vf == 0) = true := by decide
theorem test_sub_equal_A18 : runs 0x8015 (regs [(0, 7), (1, 7), (15, 1)]) (fun t => t.getV 0 == 0 && t.vf == 0) = true := by
  decide
theorem test_shr_A22 : runs 0x8016 (regs [(0, 5)]) (fun t => t.getV 0 == 2 && t.vf == 1) = true := by decide
theorem test_shr_ignores_y_A23 : runs 0x80B6 (regs [(0, 0xFF)]) (fun t => t.getV 0 == 0x7F && t.vf == 1) = true := by decide
theorem test_subn_A26 : runs 0x8017 (regs [(0, 5), (1, 7)]) (fun t => t.getV 0 == 2 && t.vf == 1) = true := by decide
theorem test_subn_A27 : runs 0x8017 (regs [(0, 7), (1, 5)]) (fun t => t.getV 0 == 0xFE && t.vf == 0) = true := by decide
theorem test_shl_A29 : runs 0x810E (regs [(1, 0xC1)]) (fun t => t.getV 1 == 0x82 && t.vf == 1) = true := by decide
theorem test_shl_A30 : runs 0x810E (regs [(1, 0x7F)]) (fun t => t.getV 1 == 0xFE && t.vf == 0) = true := by decide
/-- A32: the injected draw 0xA7. -/
theorem test_rnd_A32 :
    runs 0xC30F { State.reset with env := { State.reset.env with rndQueue := [0xA7] } } (fun t => t.getV 3 == 7) = true := by
  decide
theorem test_illegal_A34 : faults 0x8128 State.reset (.illegalInstruction 0x200 0x8128) = true := by decide

/-! ### Control flow family (vectors B) -/

theorem test_sys_B1 :
    runs 0x0123 State.reset (fun t => t.pc == 0x202 && t.env.outputs == [.sysReport 0x200 0x0123]) = true := by decide
theorem test_ret_B3 :
    runs 0x00EE { State.reset with sp := 1, stack := State.reset.stack.set 0 0x206 }
      (fun t => t.sp == 0 && t.pc == 0x206 && t.stackCell 0 == 0x206) = true := by decide
theorem test_ret_empty_B4 : runs 0x00EE State.reset (fun t => t.sp == 15 && t.pc == 0) = true := by decide
theorem test_jp_B5 : runs 0x1123 State.reset (fun t => t.pc == 0x123) = true := by decide
theorem test_call_B9 :
    runs 0x2300 { State.reset with pc := 0xFFE } (fun t => t.stackCell 0 == 0x1000 && t.sp == 1 && t.pc == 0x300) = true := by
  decide
theorem test_se_imm_B10 : runs 0x3A07 (regs [(10, 7)]) (fun t => t.pc == 0x204) = true := by decide
theorem test_se_wraps_B21 : runs 0x3000 { State.reset with pc := 0xFFFE } (fun t => t.pc == 2) = true := by decide
theorem test_sne_imm_B13 : runs 0x4A07 (regs [(10, 8)]) (fun t => t.pc == 0x204) = true := by decide
theorem test_se_reg_B14 : runs 0x5120 (regs [(1, 0x44), (2, 0x44)]) (fun t => t.pc == 0x204) = true := by decide
theorem test_sne_reg_B17 : runs 0x9120 (regs [(1, 1), (2, 2)]) (fun t => t.pc == 0x204) = true := by decide
theorem test_jp_v0_B20 : runs 0xBFFF (regs [(0, 0xFF)]) (fun t => t.pc == 0x10FE) = true := by decide
theorem test_fetch_fault_B22 : faults 0x1234 { State.reset with pc := 0xFFF } (.fetchFault 0xFFF [0x12]) = true := by decide

/-! ### Index and memory family (vectors M) -/

theorem test_ld_i_M1 : runs 0xA2F0 State.reset (fun t => t.i == 0x2F0) = true := by decide
theorem test_add_i_M3 : runs 0xF21E { regs [(2, 1)] with i := 0xFFF } (fun t => t.i == 0x1000 && t.vf == 0) = true := by decide
theorem test_add_i_M4 : runs 0xF21E { regs [(2, 1)] with i := 0xFFFF } (fun t => t.i == 0) = true := by decide
theorem test_ld_f_M6 : runs 0xF029 (regs [(0, 0x1A)]) (fun t => t.i == 0x82) = true := by decide
theorem test_bcd_M8 :
    runs 0xF033 { regs [(0, 0xFF)] with i := 0xFFD } (fun t => t.memRead 0xFFD 3 == [2, 5, 5] && t.pc == 0x202) = true := by
  decide
theorem test_bcd_overrun_M9 :
    faults 0xF033 { regs [(0, 0xFF)] with i := 0xFFE } (.memWriteOverrun 0x200 0xF033) = true := by decide
theorem test_store_M11 :
    runs 0xF255 { regs [(0, 1), (1, 2), (2, 3), (3, 4)] with i := 0x400 }
      (fun t => t.memRead 0x400 4 == [1, 2, 3, 0] && t.i == 0x400) = true := by decide
theorem test_store_overrun_M12 : faults 0xF155 { State.reset with i := 0xFFF } (.memWriteOverrun 0x200 0xF155) = true := by
  decide
theorem test_load_M14 :
    runs 0xF165 (withBytes 0x400 [0xAA, 0xBB] { regs [(2, 0x55)] with i := 0x400 })
      (fun t => t.getV 0 == 0xAA && t.getV 1 == 0xBB && t.getV 2 == 0x55) = true := by decide
theorem test_load_truncated_M15 :
    runs 0xF365 (withBytes 0xFFE [0x11, 0x22] { regs [(2, 0x99), (3, 0x77)] with i := 0xFFE })
      (fun t => t.getV 0 == 0x11 && t.getV 1 == 0x22 && t.getV 2 == 0x99 && t.getV 3 == 0x77) = true := by decide

/-! ### Display family (vectors G) -/

theorem test_cls_G1 :
    runs 0x00E0 { State.reset with fb := State.reset.fb.set 5 0xFF } (fun t => t.fb[5] == 0 && t.vf == 0) = true := by decide
theorem test_drw_split_G4 :
    runs 0xD011 (withBytes 0x300 [0xFF] { regs [(0, 4)] with i := 0x300 })
      (fun t => t.fb[0] == 0x0F && t.fb[1] == 0xF0 && t.vf == 0) = true := by decide
theorem test_drw_counts_G7 :
    runs 0xD011 (withBytes 0x300 [0xE0] { State.reset with i := 0x300, fb := State.reset.fb.set 0 0x80 })
      (fun t => t.fb[0] == 0x60 && t.vf == 0) = true := by decide

/-! ### Keyboard and timer family, environment (vectors K) -/

theorem test_skp_K1 : runs 0xE39E { regs [(3, 7)] with key := some 7 } (fun t => t.pc == 0x204) = true := by decide
theorem test_skp_whole_byte_K4 : runs 0xE39E { regs [(3, 0x17)] with key := some 7 } (fun t => t.pc == 0x202) = true := by
  decide
theorem test_sknp_K5 : runs 0xE3A1 { regs [(3, 7)] with key := some 7 } (fun t => t.pc == 0x202) = true := by decide
theorem test_sknp_K6 : runs 0xE3A1 (regs [(3, 7)]) (fun t => t.pc == 0x204) = true := by decide
theorem test_ld_k_hold_K8 : runs 0xF50A State.reset (fun t => t.pc == 0x200 && t.getV 5 == 0) = true := by decide
theorem test_ld_k_K9 :
    runs 0xF50A { State.reset with key := some 0xA } (fun t => t.getV 5 == 0xA && t.pc == 0x202 && t.key == some 0xA) = true := by
  decide
theorem test_ld_dt_K11 : runs 0xF107 { State.reset with dt := 0x3C } (fun t => t.getV 1 == 0x3C) = true := by decide
theorem test_set_dt_K12 : runs 0xF115 (regs [(1, 0x3C)]) (fun t => t.dt == 0x3C && t.st == 0) = true := by decide
theorem test_set_st_K13 : runs 0xF218 (regs [(2, 5)]) (fun t => t.st == 5 && t.dt == 0) = true := by decide
theorem test_tick_K14 :
    steps { scheduled [.timerTick] with dt := 2 } (fun t => t.dt == 1 && t.st == 0 && t.env.schedule == []) = true := by decide
theorem test_load_program_P5b :
    steps (scheduled [.loadProgram [0x81, 0x28]]) (fun t => t.memRead 0x200 3 == [0x81, 0x28, 0] && t.pc == 0x200) = true := by
  decide

/-! ### The step runs what withFetchWord places (the kernel evaluates both sides) -/

theorem test_step_is_exec_drw : step (atReset 0xD015) = exec (.drw 0 1 5) (atReset 0xD015) := rfl
theorem test_step_is_exec_load : step (atReset 0xFF65) = exec (.ldVxMi 15) (atReset 0xFF65) := rfl

/-! ### Witnesses: every hypothesis of every statement is met -/

theorem witness_decode_encode : ∃ i : Instr, i.wf = true := ⟨.drw 3 4 5, rfl⟩
theorem witness_encode_decode :
    decodeWord 0x80B6 = .ok (.shr 0) ∧ decodeWord 0x801E = .ok (.shl 0) ∧ decodeWord 0x00E1 = .ok (.sys 0x0E1) := by decide
theorem witness_step_runs :
    (atReset 0x6A2C).env.schedule = [] ∧ (atReset 0x6A2C).pc.toNat % 4096 ≠ 4095 ∧
    decodeWord (atReset 0x6A2C).wordAtPc = .ok (.ldVxKk 10 0x2C) := by decide
/-- The same word with a step and a key event scheduled: the step runs it and keeps the key event. -/
theorem witness_step_runs_scheduled :
    let s := withSchedule [.step, .keyClear] (atReset 0x6A2C)
    s.env.schedule = .step :: [.keyClear] ∧ s.pc.toNat % 4096 ≠ 4095 ∧ decodeWord s.wordAtPc = .ok (.ldVxKk 10 0x2C) ∧
    steps s (fun t => t.getV 10 == 0x2C && t.env.schedule == [.keyClear]) = true := by decide
/-- Both faults of the fetched word with an event left. -/
theorem witness_faults_scheduled :
    let s := withSchedule [.step, .keyClear] { State.reset with pc := 0xFFF }
    let u := withSchedule [.step, .keyClear] (atReset 0x8128)
    s.nextEvent = .step ∧ s.pc.toNat % 4096 = 4095 ∧ step s = .fault (.fetchFault 0xFFF [0]) ∧
    u.nextEvent = .step ∧ u.pc.toNat % 4096 ≠ 4095 ∧ illegalWord u.wordAtPc ∧
    step u = .fault (.illegalInstruction 0x200 0x8128) :=
  ⟨rfl, by decide, rfl, rfl, by decide, by unfold illegalWord; decide, rfl⟩
/-- The two fetch clauses at their boundary: 0xFFF faults, 0xFFE does not. -/
theorem witness_fetch_boundary :
    step { State.reset with pc := 0xFFF } = .fault (.fetchFault 0xFFF [0]) ∧
    steps { State.reset with pc := 0xFFE } (fun t => t.pc == 0x1000) = true := ⟨rfl, by decide⟩
theorem witness_illegal_word :
    (atReset 0x8128).nextEvent = .step ∧ (atReset 0x8128).pc.toNat % 4096 ≠ 4095 ∧ illegalWord (atReset 0x8128).wordAtPc ∧
    step (atReset 0x8128) = .fault (.illegalInstruction 0x200 0x8128) :=
  ⟨rfl, by decide, by unfold illegalWord; decide, rfl⟩
/-- One step for each of the three faults. -/
theorem witness_three_faults :
    (∃ s, step s = .fault (.fetchFault 0xFFF [0])) ∧ (∃ s, step s = .fault (.illegalInstruction 0x200 0x8128)) ∧
    (∃ s, step s = .fault (.memWriteOverrun 0x200 0xF033)) :=
  ⟨⟨{ State.reset with pc := 0xFFF }, rfl⟩, ⟨atReset 0x8128, rfl⟩, ⟨State.withFetchWord { State.reset with i := 0xFFE } 16 0xF033, rfl⟩⟩
theorem load_refused (bytes : List Byte) (h : bytes.length = 3585) :
    step (scheduled [.loadProgram bytes]) = .refused (.launchRefused 3585) := by
  have hn : ∀ s : State, s.memWrite Config.progStart bytes = none := fun s =>
    memWrite_none.2 (by rw [h]; decide)
  rw [step_of_schedule (e := .loadProgram bytes) (rest := []) rfl]
  simp only [perform, State.loadProgram, hn, h]
theorem load_accepted (bytes : List Byte) (h : bytes.length = 3584) :
    ∃ t, step (scheduled [.loadProgram bytes]) = .next t := by
  have hf := fun s : State => memWrite_fits (s := s) (addr := Config.progStart) (bytes := bytes) (by rw [h]; decide)
  rw [step_of_schedule (e := .loadProgram bytes) (rest := []) rfl]
  simp only [perform, State.loadProgram, hf]
  exact ⟨_, rfl⟩
/-- An image of 3585 bytes is refused, one of 3584 loads. -/
theorem witness_load_boundary :
    step (scheduled [.loadProgram (List.replicate 3585 1)]) = .refused (.launchRefused 3585) ∧
    ∃ t, step (scheduled [.loadProgram (List.replicate 3584 1)]) = .next t :=
  ⟨load_refused _ List.length_replicate, load_accepted _ List.length_replicate⟩
/-- A store that ends on the last byte fits, one byte further does not; what stores nothing always fits. -/
theorem witness_store_boundary :
    storeFits (.ldBVx 0) { State.reset with i := 0xFFD } ∧ ¬ storeFits (.ldBVx 0) { State.reset with i := 0xFFE } ∧
    storeFits (.ldMiVx 15) { State.reset with i := 0xFF0 } ∧ ¬ storeFits (.ldMiVx 15) { State.reset with i := 0xFF1 } ∧
    storeFits .cls { State.reset with i := 0xFFFF } := by unfold storeFits; decide
theorem witness_memory_form :
    (atReset 0x6A2C).Inv ∧ ∃ t, step (atReset 0x6A2C) = .next t := ⟨by unfold State.Inv; decide, _, rfl⟩
theorem witness_equal_memories :
    Memory.wf [(0x200, 1), (0x201, 2)] = true ∧
    Memory.write (Memory.write [] 0x201 2) 0x200 1 = [(0x200, 1), (0x201, 2)] := by decide
theorem witness_finished : (atReset 0x1200).finished ∧ (atReset 0x1200).env.schedule = [] :=
  ⟨by unfold State.finished; decide, rfl⟩
theorem witness_finished_scheduled :
    let s := withSchedule [.step, .timerTick] (atReset 0x1200)
    s.finished ∧ s.nextEvent = .step := ⟨by unfold State.finished; decide, rfl⟩
theorem witness_held : (atReset 0xF50A).held ∧ (atReset 0xF50A).env.schedule = [] :=
  ⟨⟨rfl, by decide, 5, by decide⟩, rfl⟩
theorem witness_held_scheduled :
    let s := withSchedule [.step, .timerTick] (atReset 0xF50A)
    s.held ∧ s.nextEvent = .step := ⟨⟨rfl, by decide, 5, by decide⟩, rfl⟩
/-- The clauses of MemRead at the end of memory: 0xFFE with 2 bytes is whole, with 3 it is short. -/
theorem witness_memread_boundary :
    (State.reset.memRead 0xFFE 2).length = 2 ∧ (State.reset.memRead 0xFFE 3).length = 2 ∧ State.reset.memRead 0xFFE 0 = [] := by
  decide
/-- The clauses of MemWrite at the end of memory, by address 0x1FFE reduced: two bytes fit, three do not. -/
theorem witness_memwrite_boundary :
    (∃ t, State.reset.memWrite 0x1FFE [1, 2] = some t ∧ t.mem = [(0xFFE, 1), (0xFFF, 2)]) ∧
    State.reset.memWrite 0x1FFE [1, 2, 3] = none ∧ ({ State.reset with i := 0x1FFE } : State).i = 0x1FFE :=
  ⟨⟨_, rfl, by decide⟩, rfl, rfl⟩
/-- Where a store meets the next instruction at 0x202: LD [I],V1 over all of it, over its first byte with the second
beyond the store, and just before it. -/
theorem witness_store_over_next_word :
    let s (i : Word) : State := { State.reset with i := i }
    (storeFits (.ldMiVx 1) (s 0x202) ∧ 0x202 + 1 = (s 0x202).i.toNat % 4096 + (1 : Reg).val) ∧
    (storeFits (.ldMiVx 1) (s 0x201) ∧ 0x202 + 0 = (s 0x201).i.toNat % 4096 + (1 : Reg).val ∧
      (s 0x201).i.toNat % 4096 + 2 ≤ 0x202 + 1) ∧
    (storeFits (.ldMiVx 1) (s 0x200) ∧ (s 0x200).i.toNat % 4096 + 2 ≤ 0x202) := by
  unfold storeFits; decide
/-- The same for the three digits of LD B,V0: the hundreds digit on the second byte with the first before the store, and
the tens and ones digits on the two bytes; and the next fetch at 0xFFF, where only one byte is read. -/
theorem witness_decimal_store_over_next_word :
    let s (i pc : Word) : State := { State.reset with i := i, pc := pc }
    (storeFits (.ldBVx 0) (s 0x203 0x200) ∧ 0x202 + 0 < (s 0x203 0x200).i.toNat % 4096 ∧
      0x202 + 1 = (s 0x203 0x200).i.toNat % 4096) ∧
    (storeFits (.ldBVx 0) (s 0x201 0x200) ∧ 0x202 + 0 = (s 0x201 0x200).i.toNat % 4096 + 1 ∧
      0x202 + 1 = (s 0x201 0x200).i.toNat % 4096 + 2) ∧
    (storeFits (.ldBVx 0) (s 0xFFD 0xFFD) ∧ ((s 0xFFD 0xFFD).pc.toNat + 2) % 4096 = 0xFFF ∧
      0xFFF + 0 = (s 0xFFD 0xFFD).i.toNat % 4096 + 2) := by
  unfold storeFits; decide
theorem witness_fifteen_pushes : (List.replicate 15 (0x300 : Word)).length = 15 := by decide
/-- The two clauses of the draw: an injected byte, and none. -/
theorem witness_rnd :
    (∃ s : State, s.env.rndQueue = 0xA7 :: []) ∧ State.reset.env.rndQueue = [] ∧ ∃ t, exec (.rnd 3 0x0F) State.reset = .next t :=
  ⟨⟨{ State.reset with env := { State.reset.env with rndQueue := [0xA7] } }, rfl⟩, rfl, _, rfl⟩
/-- A flag-writing instruction, with register 0xF as the destination too, and one that writes no flag. -/
theorem witness_exec_next :
    (∃ t, exec (.sub 15 1) State.reset = .next t) ∧ (∃ t, exec (.ldVxMi 3) State.reset = .next t) ∧
    writesFlag (.sub 15 1) = true ∧ ¬ isDestination (.ldVxMi 3) 4 :=
  ⟨⟨_, rfl⟩, ⟨_, rfl⟩, rfl, by unfold isDestination; decide⟩
theorem witness_call_then_return :
    let s := withBytes 0x30C [0x00, 0xEE] (atReset 0x230C)
    s.env.schedule = [] ∧ s.pc.toNat % 4096 ≠ 4095 ∧ (0x30C : Addr).toNat ≠ 4095 ∧ decodeWord s.wordAtPc = .ok (.call 0x30C) ∧
    s.mem.read 0x30C = 0x00 ∧ s.mem.read 0x30D = 0xEE := by decide
theorem witness_store_then_load :
    ∃ t, exec (.ldMiVx 2) { regs [(0, 1), (1, 2)] with i := 0x400 } = .next t ∧ t.i = 0x400 := ⟨_, rfl, rfl⟩
/-- A one-pixel sprite on a cleared display, at registers other than `VF`. -/
theorem witness_draw_twice :
    let s := withBytes 0x300 [0x80] { State.reset with i := 0x300 }
    (∀ k ∈ touchedBytes ((s.getV 0).toNat % 64) ((s.getV 1).toNat % 32) (rowsRead s 1), s.fb.toList.getD k 0 = 0) ∧
    spriteBit s ((s.getV 0).toNat % 64) ((s.getV 1).toNat % 32) 1 0 0 = true := by decide
/-- Both key clauses, at the boundary code 0xF and the byte 0x1F that no key names. -/
theorem witness_keys :
    (∃ k, ({ regs [(3, 0x0F)] with key := some 0xF } : State).key = some k ∧ k.toNat = ((regs [(3, 0x0F)]).getV 3).toNat) ∧
    ¬ ∃ k : Nibble, k.toNat = ((regs [(3, 0x1F)]).getV 3).toNat :=
  ⟨⟨0xF, rfl, by decide⟩, by decide⟩
theorem witness_tick : (scheduled [.timerTick]).env.schedule = .timerTick :: [] := rfl
theorem witness_key_clear :
    let s : State := withSchedule [.keyClear, .step] (atReset 0xF50A)
    s.env.schedule = .keyClear :: [.step] ∧ s.held := ⟨rfl, rfl, by decide, 5, by decide⟩
theorem witness_fb_read : (scheduled [.fbRead, .step]).env.schedule = .fbRead :: [.step] := rfl
/-- Every environment operation but reset, one by one. -/
theorem witness_event :
    (∃ t, perform (.loadProgram [1]) State.reset = .next t) ∧ (∃ t, perform (.keySet 3) State.reset = .next t) ∧
    (∃ t, perform .keyClear State.reset = .next t) ∧ (∃ t, perform .timerTick State.reset = .next t) ∧
    (∃ t, perform .fbRead State.reset = .next t) ∧ Event.fbRead ≠ .step ∧ Event.fbRead ≠ .reset :=
  ⟨⟨_, rfl⟩, ⟨_, rfl⟩, ⟨_, rfl⟩, ⟨_, rfl⟩, ⟨_, rfl⟩, by decide, by decide⟩

end Sys2Proof.Tests
end

/-! PROOFS. The state and its invariant, the frame of every instruction and event, `PC` and registers after each
instruction, the pixels of a draw, reset, CALL and the register skips. -/

namespace Sys2Proof.Machine

/-! ### The canonical form of memory (R22, log 26) -/

/-- R171: a program load that completes is an accepted write at 0x200. -/
theorem memWrite_of_loadProgram_next {s t : State} {bytes : List Byte} (h : s.loadProgram bytes = .next t) :
    s.memWrite Config.progStart bytes = some t := by
  unfold State.loadProgram at h
  split at h
  · next hw => cases h; exact hw
  · cases h

/-- An event keeps the canonical form: only an instruction's store, the program load and reset touch memory. -/
theorem perform_keeps_wf {e : Event} {s t : State} (h : perform e s = .next t) (hwf : s.mem.wf = true) :
    t.mem.wf = true := by
  cases e with
  | step =>
    obtain ⟨-, hf⟩ | ⟨-, _, -, hf⟩ | ⟨-, i, -, hx⟩ := stepCore_cases s
    · simp [perform, hf] at h
    · simp [perform, hf] at h
    · exact exec_keeps_wf (hx.symm.trans h) hwf
  | loadProgram bytes => exact memWrite_keeps_wf (memWrite_of_loadProgram_next h) hwf
  | reset => cases h; rfl
  | keySet k => cases h; exact hwf
  | keyClear => cases h; exact hwf
  | timerTick => cases h; exact hwf
  | fbRead => cases h; exact hwf

/-- Settles O14: the next event is performed on a state with the same memory. -/
theorem everyStepKeepsTheMemoryForm : Obligations.EveryStepKeepsTheMemoryForm :=
  fun s _ hwf h => perform_keeps_wf (s := s.eventTaken) h hwf

/-- A listed cell differs from its reset contents, so a memory that lists `k` first reads otherwise at `k` than one
whose addresses are all higher. -/
theorem read_head_ne_read_of_above {k : Nat} {b : Byte} {rest m : Memory} (h : Memory.wf ((k, b) :: rest) = true)
    (habove : ∀ c ∈ m, k < c.1) : Memory.read ((k, b) :: rest) k ≠ m.read k := by
  obtain ⟨-, hb, -, -⟩ := wf_cons.1 h
  simpa [Memory.read, read_below m k habove] using hb

/-- The addresses after a lower one and the head of a canonical memory. -/
theorem above_of_wf_of_lt {k j : Nat} {b : Byte} {rest : Memory} (h : Memory.wf ((j, b) :: rest) = true) (hkj : k < j) :
    ∀ c ∈ (j, b) :: rest, k < c.1 := by
  obtain ⟨-, -, hbelow, -⟩ := wf_cons.1 h
  rintro c (_ | ⟨_, hc⟩)
  · exact hkj
  · exact hkj.trans (hbelow c hc)

/-- Settles O15, by induction on the first list: the heads must name the same cell, or the lower one of the two reads
as listed in one memory and as at reset in the other; and what follows the heads reads alike, at the heads' cell because
neither rest lists it. -/
theorem memoriesThatReadAlikeAreEqual : Obligations.MemoriesThatReadAlikeAreEqual := by
  intro m
  induction m with
  | nil =>
    rintro (_ | ⟨⟨j, c⟩, rest'⟩) - h' hread
    · rfl
    · exact absurd (hread j (wf_cons.1 h').1).symm (read_head_ne_read_of_above h' (by simp))
  | cons cell rest ih =>
    obtain ⟨k, b⟩ := cell
    rintro (_ | ⟨⟨j, c⟩, rest'⟩) h h' hread
    · exact absurd (hread k (wf_cons.1 h).1) (read_head_ne_read_of_above h (by simp))
    · obtain ⟨hk, -, hbelow, hrest⟩ := wf_cons.1 h
      obtain ⟨hj, -, hbelow', hrest'⟩ := wf_cons.1 h'
      rcases Nat.lt_trichotomy k j with hlt | rfl | hlt
      · exact absurd (hread k hk) (read_head_ne_read_of_above h (above_of_wf_of_lt h' hlt))
      · have hbc : b = c := by simpa [Memory.read] using hread k hk
        have htails : ∀ a, a < 4096 → Memory.read rest a = Memory.read rest' a := by
          intro a ha
          by_cases hka : k = a
          · subst hka; rw [read_below rest k hbelow, read_below rest' k hbelow']
          · simpa [Memory.read, hka] using hread a ha
        rw [hbc, ih rest' hrest hrest' htails]
      · exact absurd (hread j hj).symm (read_head_ne_read_of_above h' (above_of_wf_of_lt h hlt))

/-! ### Frames: one rule per update of the state -/

/-- `PC` is no part, so a jump, and with it the advance that ends most instructions, keeps every frame. -/
theorem changesOnly.jump {s t : State} {parts : List Part} (h : changesOnly s t parts) (a : Word) :
    changesOnly s (t.jump a) parts := by
  intro p hp
  have hsame := h p hp
  cases p <;> exact hsame

section
variable (s : State)

theorem changesOnly_self : changesOnly s s [] := changesOnly_jump s s.pc

theorem changesOnly_setMem (m : Memory) : changesOnly s { s with mem := m } [.memory] := by
  intro p hp; cases p <;> simp_all [Part.same, State.getV, State.stackCell]

theorem changesOnly_setRegs (v : Vector Byte 16) : changesOnly s { s with v := v } [.registers] := by
  intro p hp; cases p <;> simp_all [Part.same, State.stackCell]

theorem changesOnly_setIndex (a : Word) : changesOnly s { s with i := a } [.index] := by
  intro p hp; cases p <;> simp_all [Part.same, State.getV, State.stackCell]

theorem changesOnly_setDelay (b : Byte) : changesOnly s { s with dt := b } [.delayTimer] := by
  intro p hp; cases p <;> simp_all [Part.same, State.getV, State.stackCell]

theorem changesOnly_setSound (b : Byte) : changesOnly s { s with st := b } [.soundTimer] := by
  intro p hp; cases p <;> simp_all [Part.same, State.getV, State.stackCell]

theorem changesOnly_setDisplay (fb : Vector Byte 256) : changesOnly s { s with fb := fb } [.display] := by
  intro p hp; cases p <;> simp_all [Part.same, State.getV, State.stackCell]

theorem changesOnly_setKey (k : Option Nibble) : changesOnly s { s with key := k } [.key] := by
  intro p hp; cases p <;> simp_all [Part.same, State.getV, State.stackCell]

theorem changesOnly_setEnv (e : Environment) : changesOnly s { s with env := e } [.environment] := by
  intro p hp; cases p <;> simp_all [Part.same, State.getV, State.stackCell]

theorem changesOnly_push (a : Word) : changesOnly s (s.push a) [.stack] := by
  intro p hp; cases p <;> simp_all [Part.same]

theorem changesOnly_pop : changesOnly s s.pop.2 [.stack] := by
  intro p hp; cases p <;> simp_all [Part.same]

theorem changesOnly_rndTaken : changesOnly s s.rndTaken [.environment] := by
  unfold State.rndTaken
  split <;> exact changesOnly_setEnv s _

end

/-- One change after another writes what the two write together. -/
theorem changesOnly.trans {s t u : State} {parts parts' : List Part} (h : changesOnly s t parts)
    (h' : changesOnly t u parts') : changesOnly s u (parts ++ parts') := by
  intro p hp
  obtain ⟨hp₁, hp₂⟩ := not_or.1 (mt List.mem_append.2 hp)
  have hst := h p hp₁
  have htu := h' p hp₂
  cases p <;> simp_all [Part.same]

/-- A frame speaks of the set of parts listed: it holds of any list that names them all. -/
theorem changesOnly.mono {s t : State} {parts parts' : List Part} (h : changesOnly s t parts) (hsub : parts ⊆ parts') :
    changesOnly s t parts' :=
  fun p hp => h p fun hmem => hp (hsub hmem)

theorem changesOnly_storeAtI {i : Instr} {bytes : List Byte} {s t : State} (h : storeAtI i bytes s = .next t) :
    changesOnly s t [.memory] := by
  obtain ⟨-, rfl⟩ := storeAtI_next h
  exact (changesOnly_setMem s _).jump _

/-- R153, R152: LD Vx,K holds or takes the key. -/
theorem execLdVxK_next {x : Reg} {s t : State} (h : exec (.ldVxK x) s = .next t) :
    (s.key = none ∧ t = s) ∨ ∃ k, s.key = some k ∧ t = (s.setV x (zextKey k)).advance := by
  simp only [exec, execLdVxK] at h
  split at h
  · next hkey => cases h; exact .inl ⟨hkey, rfl⟩
  · next k hkey => cases h; exact .inr ⟨k, hkey, rfl⟩

/-- What an instruction that completes leaves unchanged: every part `mayWrite` does not list. -/
theorem exec_changesOnly {i : Instr} {s t : State} (h : exec i s = .next t) : changesOnly s t (mayWrite i) := by
  cases i
  case ldBVx | ldMiVx => exact changesOnly_storeAtI h
  case ldVxK x =>
    obtain ⟨-, rfl⟩ | ⟨k, -, rfl⟩ := execLdVxK_next h
    · exact (changesOnly_self _).mono (List.nil_subset _)
    · exact changesOnly_setV_advance s x _
  all_goals cases h
  case cls => exact (changesOnly_setDisplay s _).jump _
  case sys => exact (changesOnly_setEnv s _).jump _
  case call => exact (changesOnly_push s _).jump _
  case ret => exact (changesOnly_pop s).jump _
  case jp | jpV0 => exact changesOnly_jump s _
  case seVxKk | sneVxKk | seVxVy | sneVxVy | skp | sknp => exact changesOnly_skipIf s _
  case ldVxKk | addVxKk | ldVxVy | or | and | xor | ldVxDt => exact changesOnly_setV_advance s _ _
  case addVxVy | sub | subn | shr | shl => exact changesOnly_setResultAndFlag_advance s _ _ _
  case ldVxMi => exact (changesOnly_setRegs s _).jump _
  case ldINnn | addIVx | ldFVx => exact (changesOnly_setIndex s _).jump _
  case ldDtVx => exact (changesOnly_setDelay s _).jump _
  case ldStVx => exact (changesOnly_setSound s _).jump _
  case drw => exact (changesOnly_setDisplay s _).trans (changesOnly_setV_advance _ _ _)
  case rnd =>
    exact ((changesOnly_rndTaken s).trans (changesOnly_setV_advance _ _ _)).mono (by simp [mayWrite])

/-- Settles O39. -/
theorem eachInstructionWritesOnlyItsOwnState : Obligations.EachInstructionWritesOnlyItsOwnState :=
  fun _ _ _ => exec_changesOnly

/-! ### `PC` after each instruction (R16) -/

theorem storeAtI_pc {i : Instr} {bytes : List Byte} {s t : State} (h : storeAtI i bytes s = .next t) :
    t.pc = s.pc + 2 := by
  obtain ⟨-, rfl⟩ := storeAtI_next h; rfl

/-- A skip adds 2 to the advanced `PC` (R17). -/
theorem pc_add_two_add_two (pc : Word) : pc + 2 + 2 = pc + 4 := BitVec.add_assoc pc 2 2

theorem zextAddr_eq_ofNat (nnn : Addr) : zextAddr nnn = BitVec.ofNat 16 nnn.toNat := (BitVec.ofNat_toNat 16 nnn).symm

theorem offsetTarget_eq_ofNat (nnn : Addr) (b : Byte) :
    offsetTarget nnn b = BitVec.ofNat 16 (nnn.toNat + b.toNat) := by
  rw [← offsetTarget_toNat, BitVec.ofNat_toNat, BitVec.setWidth_eq]

/-- Settles O38, instruction by instruction. -/
theorem pcAfterEveryInstruction : Obligations.PcAfterEveryInstruction := by
  intro i s t h
  cases i
  case ldBVx | ldMiVx => exact storeAtI_pc h
  case ldVxK =>
    obtain ⟨hkey, rfl⟩ | ⟨k, hkey, rfl⟩ := execLdVxK_next h <;> simp [pcAfter, hkey]
  all_goals cases h
  case jp | call => exact zextAddr_eq_ofNat _
  case jpV0 => exact offsetTarget_eq_ofNat _ _
  case seVxKk | seVxVy =>
    simp only [pcAfter, skipIf_pc, pc_add_two_add_two, beq_iff_eq]
  case sneVxKk | sneVxVy =>
    simp only [pcAfter, skipIf_pc, pc_add_two_add_two, bne_iff_ne, ne_eq, ite_not]
  case skp =>
    simp only [pcAfter, skipIf_pc, pc_add_two_add_two, keyMatches_iff]
  case sknp =>
    simp only [pcAfter, skipIf_pc, pc_add_two_add_two, Bool.not_eq_true', ← Bool.not_eq_true, keyMatches_iff, ite_not]
  case rnd => simp [pcAfter]
  all_goals rfl

/-! ### Registers (R12, R80) -/

@[simp] theorem vf_setResultAndFlag_advance (s : State) (x : Reg) (r f : Byte) :
    (s.setResultAndFlag x r f).advance.vf = f := by
  simp [vf_eq]

/-- DRW writes its collision flag to `VF` and leaves every other register. -/
theorem getV_execDrw {x y : Reg} {n : Fin 16} {s t : State} (h : exec (.drw x y n) s = .next t) (r : Reg) :
    t.getV r =
      if r = 15 then collisionFlag (drawSprite x y n s).before (drawSprite x y n s).after else s.getV r := by
  cases h
  exact getV_setV _ _ _ _

/-- A range load reads at most `X + 1` bytes, so it reaches no register above `V[X]` (R125, D14). -/
theorem getV_execLdVxMi_of_gt {x r : Reg} {s t : State} (h : exec (.ldVxMi x) s = .next t) (hr : x < r) :
    t.getV r = s.getV r := by
  cases h
  have hlen : (s.memRead s.i (x.val + 1)).length ≤ r.val := by
    have : x.val < r.val := hr
    rw [memRead_length]; omega
  simp [State.getV, loadRegs_getElem, List.getElem?_eq_none hlen]

/-- A register that is neither the destination nor the flag of a flag-writing instruction keeps its value. -/
theorem exec_keeps_other_register {i : Instr} {s t : State} (h : exec i s = .next t) {r : Reg}
    (hdest : ¬ isDestination i r) (hflag : writesFlag i = true → r ≠ 15) : t.getV r = s.getV r := by
  by_cases hregs : Part.registers ∈ mayWrite i
  case neg => exact exec_changesOnly h .registers hregs r
  cases i
  case ldVxKk x _ | addVxKk x _ | ldVxVy x _ | or x _ | and x _ | xor x _ | rnd x _ | ldVxDt x =>
    cases h
    have hrx : r ≠ x := hdest
    simp [hrx]
  case ldVxK x =>
    have hrx : r ≠ x := hdest
    obtain ⟨-, rfl⟩ | ⟨k, -, rfl⟩ := execLdVxK_next h
    · rfl
    · simp [hrx]
  case addVxVy x _ | sub x _ | subn x _ | shr x | shl x =>
    cases h
    have hrx : r ≠ x := hdest
    simp [hrx, hflag rfl]
  case drw => rw [getV_execDrw h, if_neg (hflag rfl)]
  case ldVxMi => exact getV_execLdVxMi_of_gt h (not_le.1 hdest)
  all_goals simp [mayWrite] at hregs

/-- The flag of a flag-writing instruction is `flagOf` of its condition. -/
theorem exec_vf_eq_flagOf {i : Instr} {s t : State} (h : exec i s = .next t) (hflag : writesFlag i = true) :
    ∃ c, t.vf = flagOf c := by
  cases i
  case addVxVy | sub | subn | shr | shl => cases h; exact ⟨_, vf_setResultAndFlag_advance _ _ _ _⟩
  case drw => exact ⟨_, getV_execDrw h 15⟩
  all_goals cases hflag

/-- Settles O30. -/
theorem registersChangeOnlyAsDestinationOrFlag : Obligations.RegistersChangeOnlyAsDestinationOrFlag := by
  refine fun i s t h => ⟨fun r => exec_keeps_other_register h, fun hflag => ?_⟩
  obtain ⟨c, hc⟩ := exec_vf_eq_flagOf h hflag
  exact hc ▸ flagOf_zero_or_one c

/-! ### The environment's operations (R171 to R175) -/

/-- Settles O52: the event changes the latch and the schedule, a held core stays held since `PC` and the word it
addresses are the same, and `KEY` is among the parts of no instruction. -/
theorem keyClearOnlyEmptiesTheLatch : Obligations.KeyClearOnlyEmptiesTheLatch := by
  constructor
  · intro s rest hsched
    refine ⟨_, step_of_schedule hsched, rfl, rfl, rfl, ?_, fun ⟨_, hpc, hword⟩ => ⟨rfl, hpc, hword⟩⟩
    exact ((changesOnly_setEnv s _).trans (changesOnly_setKey _ none)).mono (by simp)
  · intro i s t h
    exact exec_changesOnly h .key (by cases i <;> simp [mayWrite])

/-- Settles O57, event by event. -/
theorem environmentEventsStayInTheirPlace : Obligations.EnvironmentEventsStayInTheirPlace := by
  intro e s t h hstep hreset
  cases e with
  | step => exact absurd rfl hstep
  | reset => exact absurd rfl hreset
  | loadProgram bytes =>
    obtain ⟨-, rfl⟩ := memWrite_some (memWrite_of_loadProgram_next h)
    exact ⟨rfl, changesOnly_setMem s _, rfl, rfl, rfl, nofun⟩
  | keySet k => cases h; exact ⟨rfl, changesOnly_setKey s _, rfl, rfl, rfl, nofun⟩
  | keyClear => cases h; exact ⟨rfl, changesOnly_setKey s _, rfl, rfl, rfl, nofun⟩
  | timerTick =>
    cases h
    exact ⟨rfl, (changesOnly_setDelay s (tick s.dt)).trans (changesOnly_setSound _ _), rfl, rfl, rfl, nofun⟩
  | fbRead => cases h; exact ⟨rfl, changesOnly_setEnv s _, rfl, rfl, rfl, fun _ => rfl⟩

/-! ### The display: DRW, pixel by pixel (R141, R142, R144) -/

/-- A draw flips pixel `(px, py)` when the sprite row that lies on `py`, if there is one, sets the bit for `px`. -/
theorem pixel_drawRows (t : Blit) (x0 px : Fin 64) (y0 : Nat) (py : Fin 32) (rows : List Byte) :
    pixel (t.drawRows x0 y0 rows).fb px py =
      (pixel t.fb px py ^^
        (decide (x0.val ≤ px.val ∧ px.val < x0.val + 8 ∧ y0 ≤ py.val ∧ py.val < y0 + rows.length) &&
          (rows[py.val - y0]?.getD 0).getLsbD (7 - (px.val - x0.val)))) := by
  simp only [pixel, drawRows_fb]
  by_cases hrow : y0 ≤ py.val ∧ py.val < y0 + rows.length
  · obtain ⟨hle, hlt⟩ := hrow
    have hget : rows[py.val - y0]? = some rows[py.val - y0] := List.getElem?_eq_getElem (by omega)
    simp only [hle, hlt, hget, if_true, Option.map_some, Option.getD_some, BitVec.getLsbD_xor, rowBits_bit, and_true]
  · by_cases hle : y0 ≤ py.val
    · have hnone : rows[py.val - y0]? = none := List.getElem?_eq_none (by omega)
      simp [hnone, hle]
    · simp [hle]

/-- The sprite's rows are the bytes of memory that `spriteBit` reads. -/
theorem pixel_drawSprite (x y : Reg) (n : Fin 16) (s : State) (px : Fin 64) (py : Fin 32) :
    pixel (drawSprite x y n s).fb px py =
      (pixel s.fb px py ^^ spriteBit s ((s.getV x).toNat % 64) ((s.getV y).toNat % 32) n px py) := by
  rw [drawSprite, pixel_drawRows, memRead_rows, spriteBit]
  congr 1
  rw [Bool.eq_iff_iff]
  simp only [Bool.and_eq_true, decide_eq_true_eq]
  refine and_congr_right fun ⟨_, _, hle, hlt⟩ => ?_
  have hrow : py.val - (row (s.getV y)).val < rowsRead s n := by omega
  rw [memRead_getElem? s s.i n.val _ hrow]
  rfl

/-- Settles O47. -/
theorem drawXorsTheSpriteOntoThePixels : Obligations.DrawXorsTheSpriteOntoThePixels := by
  intro x y n s
  have h : exec (.drw x y n) s = .next _ := rfl
  refine ⟨_, h, pixel_drawSprite x y n s, fun r hr => ?_, rfl, exec_changesOnly h⟩
  rw [getV_execDrw h, if_neg (by simpa using hr)]

/-! ### Reset (R24, R25) -/

/-- Settles O12. -/
theorem resetLeavesTheStateOfTheTable : Obligations.ResetLeavesTheStateOfTheTable := by
  refine ⟨rfl, rfl, fun k => ?_, resetByte_above, fun r => ?_, rfl, rfl, rfl, rfl, fun j => ?_, by decide⟩
  · simp [State.reset]
  · simp [State.reset, State.getV]
  · simp [State.reset, State.stackCell]

/-- Settles O13: nothing is listed. -/
theorem resetMeetsTheMemoryForm : Obligations.ResetMeetsTheMemoryForm := rfl

/-! ### CALL and the register skips (R105 to R109) -/

theorem hasWord_call (nnn : Addr) : hasWord (.call nnn) (0x2000 + nnn.toNat) :=
  ⟨encodeNNN_toNat 2 nnn, by simp [encode, decodeWord]⟩

/-- RET pops what CALL pushed, for the cursor comes back to the cell. -/
theorem exec_ret_after_push (s : State) (a b : Word) :
    exec .ret ((s.push a).jump b) = .next { (s.push a).jump b with pc := a, sp := s.sp } := by
  have hsp : ((s.push a).jump b).sp - 1 = s.sp := by simp
  have hcell : ((s.push a).jump b).stackCell s.sp = a := by simp
  simp only [exec, execRet, State.pop, hsp, hcell]
  rfl

/-- Settles O33. -/
theorem callPushesTheNextAddress : Obligations.CallPushesTheNextAddress := by
  intro nnn s
  have h : exec (.call nnn) s = .next _ := rfl
  refine ⟨hasWord_call nnn, _, h, zextAddr_toNat nnn, ?_, fun j hj => ?_, ?_, exec_changesOnly h, ?_⟩
  · simp [State.npc]
  · simp [hj]
  · simp
  · exact exec_ret_after_push s _ _

section
variable (x y : Reg) (kk : Byte)

theorem hasWord_seVxKk : hasWord (.seVxKk x kk) (0x3000 + 0x100 * x.val + kk.toNat) :=
  ⟨by simp [encode, encodeXKK_toNat, Nat.mul_comm], by simp [encode, decodeWord]⟩

theorem hasWord_sneVxKk : hasWord (.sneVxKk x kk) (0x4000 + 0x100 * x.val + kk.toNat) :=
  ⟨by simp [encode, encodeXKK_toNat, Nat.mul_comm], by simp [encode, decodeWord]⟩

theorem hasWord_seVxVy : hasWord (.seVxVy x y) (0x5000 + 0x100 * x.val + 0x10 * y.val) :=
  ⟨by simp [encode, encodeXYN_toNat, Nat.mul_comm], by simp [encode, decodeWord]⟩

theorem hasWord_sneVxVy : hasWord (.sneVxVy x y) (0x9000 + 0x100 * x.val + 0x10 * y.val) :=
  ⟨by simp [encode, encodeXYN_toNat, Nat.mul_comm], by simp [encode, decodeWord]⟩

end

/-- An instruction that completes and may write no part changes `PC` alone, to the value of the table of R16. -/
theorem exec_writes_only_pc {i : Instr} {s t : State} (h : exec i s = .next t) (hparts : mayWrite i = []) {d : Nat}
    (hpc : (pcAfter i s).toNat = d) : ∃ u, exec i s = .next u ∧ changesOnly s u [] ∧ u.pc.toNat = d :=
  ⟨t, h, hparts ▸ exec_changesOnly h, pcAfterEveryInstruction i s t h ▸ hpc⟩

/-- Settles O36, the frame and `PC` of each skip by the statements about all instructions. -/
theorem skipsTestEquality : Obligations.SkipsTestEquality := by
  intro x y kk s
  refine ⟨hasWord_seVxKk x kk, hasWord_sneVxKk x kk, hasWord_seVxVy x y, hasWord_sneVxVy x y, ?_, ?_, ?_, ?_⟩
  all_goals
    refine exec_writes_only_pc rfl rfl ?_
    simp only [pcAfter, ← BitVec.toNat_inj]
    split <;> exact BitVec.toNat_add _ _

end Sys2Proof.Machine

/-! PROOFS. The memory primitives MemRead and MemWrite, and the fetch that follows a store instruction. -/

namespace Sys2Proof.Machine

/-! ### `MemRead` (R42) -/

/-- Settles O18: the clauses on whole and short results are the length clamped at the end of memory, and the start
address is below that end. -/
theorem memReadIsClampedAtTheEnd : Obligations.MemReadIsClampedAtTheEnd := by
  intro s addr n
  have hlen : (s.memRead addr n).length = min n (4096 - addr.toNat % 4096) := memRead_length s addr n
  have hstart : addr.toNat % 4096 < 4096 := startAddr_lt addr
  refine ⟨hlen, memRead_getElem? s addr n, fun hwhole => ?_, fun hshort => ?_, fun hn => ?_, ?_⟩
  · omega
  · omega
  · omega
  · exact List.length_eq_zero_iff.1 ((memRead_length s addr 0).trans (Nat.zero_min _))

/-! ### `MemWrite` (R43, R193) -/

section
variable {s t : State} {addr : Word} {bytes : List Byte}

theorem memWrite_read_inside (h : s.memWrite addr bytes = some t) {j : Nat} {b : Byte} (hb : bytes[j]? = some b) :
    t.mem.read (startAddr addr + j) = b := by
  obtain ⟨-, rfl⟩ := memWrite_some h
  exact read_writeRun_inside _ _ _ _ _ hb

theorem memWrite_keepsMemoryOutside (h : s.memWrite addr bytes = some t) :
    keepsMemoryOutside s t (startAddr addr) bytes.length := by
  obtain ⟨-, rfl⟩ := memWrite_some h
  exact read_writeRun_outside _ _ _

end

/-- Settles O19. -/
theorem memWriteWritesAllOrNothing : Obligations.MemWriteWritesAllOrNothing := by
  refine fun s addr bytes => ⟨fun hover => ⟨memWrite_none.2 hover, ?_⟩, fun hfits => ?_⟩
  · rintro rfl i
    exact storeAtI_overruns hover
  · have h : s.memWrite addr bytes = some _ := memWrite_fits hfits
    exact ⟨_, h, fun _ _ => memWrite_read_inside h, memWrite_keepsMemoryOutside h, changesOnly_setMem s _, rfl⟩

/-! ### The fetch (R61) -/

section
variable (s : State)

theorem fetch_length : s.fetch.length = min 2 (4096 - startAddr s.pc) := memRead_length s s.pc 2

theorem fetch_getElem? {j : Nat} (hj : j < 2) (hmem : startAddr s.pc + j < 4096) :
    s.fetch[j]? = some (s.mem.read (startAddr s.pc + j)) :=
  memRead_getElem? s s.pc 2 j (by omega)

end

/-- The fetch address after `PC` has advanced. -/
theorem startAddr_add_two (pc : Word) : startAddr (pc + 2) = (pc.toNat + 2) % 4096 := by
  rw [startAddr, BitVec.toNat_add]
  exact Nat.mod_mod_of_dvd _ (by decide)

/-! ### A store instruction that completes, and the fetch after it (R53, R123, R124) -/

section
variable {i : Instr} {s t : State} {bytes : List Byte}

/-- A store that completes is an accepted `MemWrite` at `I`; then `PC` advances, which memory does not see. -/
theorem memWrite_of_storeAtI_next (h : storeAtI i bytes s = .next t) :
    ∃ u, s.memWrite s.i bytes = some u ∧ u.mem = t.mem := by
  obtain ⟨hfits, rfl⟩ := storeAtI_next h
  exact ⟨_, memWrite_fits hfits, rfl⟩

theorem storeAtI_read_inside (h : storeAtI i bytes s = .next t) {k : Nat} {b : Byte} (hb : bytes[k]? = some b) :
    t.mem.read (startAddr s.i + k) = b := by
  obtain ⟨u, hu, hmem⟩ := memWrite_of_storeAtI_next h
  exact hmem ▸ memWrite_read_inside hu hb

theorem storeAtI_keepsMemoryOutside (h : storeAtI i bytes s = .next t) :
    keepsMemoryOutside s t (startAddr s.i) bytes.length := by
  obtain ⟨u, hu, hmem⟩ := memWrite_of_storeAtI_next h
  intro k hk
  exact hmem ▸ memWrite_keepsMemoryOutside hu k hk

theorem storeAtI_startAddr_pc (h : storeAtI i bytes s = .next t) : startAddr t.pc = (s.pc.toNat + 2) % 4096 := by
  rw [storeAtI_pc h, startAddr_add_two]

theorem fetch_length_after_store (h : storeAtI i bytes s = .next t) :
    t.fetch.length = min 2 (4096 - (s.pc.toNat + 2) % 4096) := by
  rw [fetch_length, storeAtI_startAddr_pc h]

variable {j : Nat} (hj : j < 2) (hmem : (s.pc.toNat + 2) % 4096 + j < 4096)
include hj hmem

theorem fetch_after_store (h : storeAtI i bytes s = .next t) :
    t.fetch[j]? = some (t.mem.read ((s.pc.toNat + 2) % 4096 + j)) := by
  rw [← storeAtI_startAddr_pc h] at hmem ⊢
  exact fetch_getElem? t hj hmem

/-- Where the fetch meets the store it reads the byte just stored. -/
theorem fetch_after_store_inside (h : storeAtI i bytes s = .next t) {k : Nat} {b : Byte} (hb : bytes[k]? = some b)
    (haddr : (s.pc.toNat + 2) % 4096 + j = startAddr s.i + k) : t.fetch[j]? = some b := by
  rw [fetch_after_store hj hmem h, haddr, storeAtI_read_inside h hb]

/-- Beside the store the fetch reads the old byte. -/
theorem fetch_after_store_outside (h : storeAtI i bytes s = .next t)
    (haddr : (s.pc.toNat + 2) % 4096 + j < startAddr s.i ∨
      startAddr s.i + bytes.length ≤ (s.pc.toNat + 2) % 4096 + j) :
    t.fetch[j]? = some (s.mem.read ((s.pc.toNat + 2) % 4096 + j)) := by
  rw [fetch_after_store hj hmem h, storeAtI_keepsMemoryOutside h _ haddr]

end

/-- Settles O20: the range store puts `V[r]` at offset `r`, the decimal store its digits at offsets 0, 1 and 2. -/
theorem aStoreIsSeenByTheNextFetch : Obligations.AStoreIsSeenByTheNextFetch := by
  refine fun x s => ⟨fun hfits => ?_, fun hfits => ?_⟩
  · have hlen : (s.regsUpTo x).length = x.val + 1 := regsUpTo_length s x
    have h : storeAtI (.ldMiVx x) (s.regsUpTo x) s = .next _ := storeAtI_fits (hlen ▸ hfits)
    refine ⟨_, h, fetch_length_after_store h, fun j hj hmem => ⟨fun r hr haddr => ?_, fun haddr => ?_⟩⟩
    · exact fetch_after_store_inside hj hmem h (regsUpTo_getElem? s x r hr) haddr
    · exact fetch_after_store_outside hj hmem h (hlen ▸ haddr)
  · have h : storeAtI (.ldBVx x) (bcdDigits (s.getV x)) s = .next _ := storeAtI_fits hfits
    refine ⟨_, h, fetch_length_after_store h, fun j hj hmem => ⟨?_, ?_, ?_, ?_⟩⟩
    · exact fetch_after_store_inside (k := 0) hj hmem h rfl
    · exact fetch_after_store_inside (k := 1) hj hmem h rfl
    · exact fetch_after_store_inside (k := 2) hj hmem h rfl
    · exact fetch_after_store_outside hj hmem h

end Sys2Proof.Machine

/-! PROOFS. The decoder and the encoder, and the faults of a step. -/

namespace Sys2Proof.Machine

/-! ### Dispatch by family (R65) -/

theorem decodeWord_of_family0 {w : Word} (h : (fieldFam w).val = 0x0) : decodeWord w = .ok (decodeFamily0 w) := by
  simp [decodeWord, h]

/-! ### Decode of encode (R62, R63, R76) -/

/-- R66: a well-formed SYS is neither of the two fixed words of family 0. -/
theorem decodeFamily0_encodeNNN {nnn : Addr} (h : (Instr.sys nnn).wf = true) :
    decodeFamily0 (encodeNNN 0 nnn) = .sys nnn := by
  simp only [Instr.wf, Bool.and_eq_true, bne_iff_ne] at h
  obtain ⟨hcls, hret⟩ := h
  have hne : ∀ a : Addr, nnn ≠ a → encodeNNN 0 nnn ≠ encodeNNN 0 a := fun a hne heq => hne <| by
    rw [← fieldNNN_encodeNNN 0 nnn, heq, fieldNNN_encodeNNN]
  have hcls' : encodeNNN 0 nnn ≠ 0x00E0#16 := hne _ hcls
  have hret' : encodeNNN 0 nnn ≠ 0x00EE#16 := hne _ hret
  rw [decodeFamily0, if_neg hcls', if_neg hret', fieldNNN_encodeNNN]

/-- Settles O2, family by family: the decoder reads back the fields that the encoder laid out. -/
theorem decodingAnEncodedInstructionGivesItBack : Obligations.DecodingAnEncodedInstructionGivesItBack := by
  intro i hwf
  cases i
  case cls | ret => rfl
  case sys nnn => rw [encode, decodeWord_of_family0 (fieldFam_encodeNNN 0 nnn), decodeFamily0_encodeNNN hwf]
  case ldVxVy | or | and | xor | addVxVy | sub | shr | subn | shl => simp [encode, decodeWord, decodeFamily8]
  case skp | sknp => simp [encode, decodeWord, decodeFamilyE]
  case ldVxDt | ldVxK | ldDtVx | ldStVx | addIVx | ldFVx | ldBVx | ldMiVx | ldVxMi =>
    simp [encode, decodeWord, decodeFamilyF]
  all_goals simp [encode, decodeWord]

/-! ### Encode of decode (R62, R63, R76, R77) -/

section
variable {w : Word} {fam : Nibble} {x y n : Fin 16} {kk : Byte}

theorem encodeNNN_fields (hfam : (fieldFam w).val = fam.toNat) : encodeNNN fam (fieldNNN w) = w := by
  rw [fieldFam_val] at hfam
  apply BitVec.eq_of_toNat_eq
  rw [encodeNNN_toNat, fieldNNN_toNat]
  omega

theorem encodeXKK_fields (hfam : (fieldFam w).val = fam.toNat) (hkk : (fieldKK w).toNat = kk.toNat) :
    encodeXKK fam (fieldX w) kk = w := by
  rw [fieldFam_val] at hfam
  rw [fieldKK_toNat] at hkk
  apply BitVec.eq_of_toNat_eq
  rw [encodeXKK_toNat, fieldX_val]
  omega

theorem encodeXYN_fields (hfam : (fieldFam w).val = fam.toNat) (hn : (fieldN w).val = n.val) :
    encodeXYN fam (fieldX w) (fieldY w) n = w := by
  rw [fieldFam_val] at hfam
  rw [fieldN_val] at hn
  apply BitVec.eq_of_toNat_eq
  rw [encodeXYN_toNat, fieldX_val, fieldY_val]
  omega

/-- R77: with 0 laid out for the `Y` field, the other bits of the word are kept. -/
theorem encodeXYN_fields_ignoringY (hfam : (fieldFam w).val = fam.toNat) (hn : (fieldN w).val = n.val) :
    (encodeXYN fam (fieldX w) 0 n).toNat = w.toNat / 0x100 * 0x100 + w.toNat % 0x10 := by
  rw [fieldFam_val] at hfam
  rw [fieldN_val] at hn
  rw [encodeXYN_toNat, fieldX_val, Fin.val_zero]
  omega

end

/-- The bits of `w` that decoding to `i` keeps: all, but for the ignored `Y` field of SHR and SHL (R77). -/
def keptBits (w : Word) : Instr → Nat
  | .shr _ | .shl _ => w.toNat / 0x100 * 0x100 + w.toNat % 0x10
  | _ => w.toNat

/-- `i` is an instruction that encodes to what decoding keeps of `w`. -/
def EncodesBackTo (w : Word) (i : Instr) : Prop := i.wf = true ∧ (encode i).toNat = keptBits w i

section
variable {w : Word} {i : Instr}

theorem encodesBackTo_family0 (hfam : (fieldFam w).val = 0) : EncodesBackTo w (decodeFamily0 w) := by
  have hword : encodeNNN 0 (fieldNNN w) = w := encodeNNN_fields hfam
  unfold decodeFamily0
  split
  · next hcls => exact hcls ▸ ⟨rfl, rfl⟩
  split
  · next hret => exact hret ▸ ⟨rfl, rfl⟩
  · next hcls hret =>
    refine ⟨?_, congrArg BitVec.toNat hword⟩
    simp only [Instr.wf, Bool.and_eq_true, bne_iff_ne]
    refine ⟨fun h => hcls ?_, fun h => hret ?_⟩ <;> rw [← hword, h] <;> rfl

theorem encodesBackTo_family8 (hfam : (fieldFam w).val = 8) (h : decodeFamily8 w = .ok i) : EncodesBackTo w i := by
  unfold decodeFamily8 at h
  split at h <;> cases h
  case h_7 hn | h_9 hn => exact ⟨rfl, encodeXYN_fields_ignoringY hfam hn⟩
  all_goals exact ⟨rfl, congrArg BitVec.toNat (encodeXYN_fields hfam ‹(fieldN w).val = _›)⟩

theorem encodesBackTo_familyE (hfam : (fieldFam w).val = 0xE) (h : decodeFamilyE w = .ok i) : EncodesBackTo w i := by
  unfold decodeFamilyE at h
  split at h <;> cases h
  all_goals exact ⟨rfl, congrArg BitVec.toNat (encodeXKK_fields hfam ‹(fieldKK w).toNat = _›)⟩

theorem encodesBackTo_familyF (hfam : (fieldFam w).val = 0xF) (h : decodeFamilyF w = .ok i) : EncodesBackTo w i := by
  unfold decodeFamilyF at h
  split at h <;> cases h
  all_goals exact ⟨rfl, congrArg BitVec.toNat (encodeXKK_fields hfam ‹(fieldKK w).toNat = _›)⟩

end

/-- Settles O3: the fields of a word, laid out again, make the word. Families 0, 8, E and F have their lemmas above;
5 and 9 are the strict ones; the rest is grouped by format. -/
theorem encodingADecodedWordGivesItBack : Obligations.EncodingADecodedWordGivesItBack := by
  intro w i h
  change EncodesBackTo w i
  unfold decodeWord at h
  split at h
  case h_1 hfam => cases h; exact encodesBackTo_family0 hfam
  case h_9 hfam => exact encodesBackTo_family8 hfam h
  case h_15 hfam => exact encodesBackTo_familyE hfam h
  case h_16 =>
    have hfam : (fieldFam w).val = 0xF := by simp only [imp_false] at *; omega
    exact encodesBackTo_familyF hfam h
  case h_6 hfam | h_10 hfam =>
    split at h <;> cases h
    next hn => exact ⟨rfl, congrArg BitVec.toNat (encodeXYN_fields hfam (congrArg Fin.val hn))⟩
  all_goals cases h
  -- XKK: families 3, 4, 6, 7 and C
  case h_4 hfam | h_5 hfam | h_7 hfam | h_8 hfam | h_13 hfam =>
    exact ⟨rfl, congrArg BitVec.toNat (encodeXKK_fields hfam rfl)⟩
  -- NNN: families 1, 2, A and B
  case h_2 hfam | h_3 hfam | h_11 hfam | h_12 hfam => exact ⟨rfl, congrArg BitVec.toNat (encodeNNN_fields hfam)⟩
  -- XYN: family D
  case h_14 hfam => exact ⟨rfl, congrArg BitVec.toNat (encodeXYN_fields hfam rfl)⟩

/-! ### The illegal words (R71) -/

section
variable {w : Word}

theorem decodeFamily8_illegal_iff :
    (∃ why, decodeFamily8 w = .error why) ↔ (fieldN w).val ∈ [0x8, 0x9, 0xA, 0xB, 0xC, 0xD, 0xF] := by
  unfold decodeFamily8
  split
  case h_10 =>
    simp only [imp_false] at *
    simp
    omega
  all_goals simp [*]

theorem decodeFamilyE_illegal_iff :
    (∃ why, decodeFamilyE w = .error why) ↔ (fieldKK w).toNat ∉ [0x9E, 0xA1] := by
  unfold decodeFamilyE
  split
  case h_3 hskp hsknp => simpa using ⟨hskp, hsknp⟩
  all_goals simp [*]

theorem decodeFamilyF_illegal_iff :
    (∃ why, decodeFamilyF w = .error why) ↔
      (fieldKK w).toNat ∉ [0x07, 0x0A, 0x15, 0x18, 0x1E, 0x29, 0x33, 0x55, 0x65] := by
  unfold decodeFamilyF
  split
  case h_10 => simp_all
  all_goals simp [*]

end

/-- Settles O4, family by family: 5 and 9 decode where `N` is 0, 8, E and F as their lemmas say, and every word of
the others decodes and is in no row of R71. -/
theorem illegalWordsAreTheOnesOfTheTable : Obligations.IllegalWordsAreTheOnesOfTheTable := by
  intro w
  simp only [illegalWord, ← fieldFam_val, ← fieldN_val, ← fieldKK_toNat]
  unfold decodeWord
  split
  case h_6 hfam | h_10 hfam => by_cases hn : fieldN w = 0 <;> simp [hfam, hn]
  case h_9 hfam => rw [decodeFamily8_illegal_iff]; simp [hfam]
  case h_15 hfam => rw [decodeFamilyE_illegal_iff]; simp [hfam]
  case h_16 =>
    have hfam : (fieldFam w).val = 0xF := by simp only [imp_false] at *; omega
    rw [decodeFamilyF_illegal_iff]; simp [hfam]
  all_goals simp [*]

theorem illegalWord_of_decodeWord_error {w : Word} {why : Illegal} (h : decodeWord w = .error why) : illegalWord w :=
  (illegalWordsAreTheOnesOfTheTable w).1 ⟨why, h⟩

/-! ### A word of every row of the opcode map (R65 to R71) -/

/-- Settles O1, word by word. -/
theorem specWordsDecodeAsTheTableSays : Obligations.SpecWordsDecodeAsTheTableSays :=
  ⟨by decide, rfl, rfl, rfl, rfl, rfl⟩

/-! ### What a step does (R61, R177, R190) -/

/-- Settles O5. -/
theorem stepRunsTheDecodedInstruction : Obligations.StepRunsTheDecodedInstruction := by
  intro s i hpc hdec
  refine ⟨stepCore_of_decode hpc hdec, fun hsched => ?_, fun rest hsched => ?_⟩
  · rw [step_of_empty_schedule hsched, stepCore_of_decode hpc hdec]
  · rw [step_of_schedule hsched]
    exact stepCore_of_decode hpc hdec

/-- No operation of the environment faults. -/
theorem perform_fault {e : Event} {s : State} {f : Fault} (h : perform e s = .fault f) :
    e = .step ∧ stepCore s = .fault f := by
  cases e
  case step => exact ⟨rfl, h⟩
  case loadProgram bytes =>
    simp only [perform, State.loadProgram] at h
    split at h <;> cases h
  all_goals cases h

/-- A store instruction has no ignored field, so it encodes to the very word it was decoded from. -/
theorem encode_of_decoded_store {w : Word} {i : Instr} (h : decodeWord w = .ok i) (hstore : 0 < storeLength i) :
    encode i = w := by
  obtain ⟨-, hbits⟩ := encodingADecodedWordGivesItBack w i h
  cases i
  case ldBVx | ldMiVx => exact BitVec.eq_of_toNat_eq hbits
  all_goals cases hstore

/-- The three ways a step faults, each with its fault (R191, R192, R193). -/
theorem step_fault_cases {s : State} {f : Fault} (h : step s = .fault f) :
    s.nextEvent = .step ∧
    ((s.pc.toNat % 4096 = 4095 ∧ f = .fetchFault s.pc [s.mem.read 4095]) ∨
     (s.pc.toNat % 4096 ≠ 4095 ∧ illegalWord s.wordAtPc ∧ f = .illegalInstruction s.pc s.wordAtPc) ∨
     (s.pc.toNat % 4096 ≠ 4095 ∧ f = .memWriteOverrun s.pc s.wordAtPc ∧
      ∃ i, decodeWord s.wordAtPc = .ok i ∧ 0 < storeLength i ∧ ¬ storeFits i s)) := by
  obtain ⟨hev, hcore⟩ := perform_fault h
  refine ⟨hev, ?_⟩
  obtain ⟨hpc, hf⟩ | ⟨hpc, why, hdec, hf⟩ | ⟨hpc, i, hdec, hx⟩ := stepCore_cases s.eventTaken
  · cases hf.symm.trans hcore; exact .inl ⟨hpc, rfl⟩
  · cases hf.symm.trans hcore; exact .inr (.inl ⟨hpc, illegalWord_of_decodeWord_error hdec, rfl⟩)
  · obtain ⟨rfl, hstore, hover⟩ := exec_fault i _ f (hx.symm.trans hcore)
    rw [encode_of_decoded_store hdec hstore]
    exact .inr (.inr ⟨hpc, rfl, i, hdec, hstore, hover⟩)

/-- Settles O7. -/
theorem fetchFaultsExactlyAtTheLastByte : Obligations.FetchFaultsExactlyAtTheLastByte := by
  refine fun s => ⟨fun hev hpc => ?_, fun addr raw h => ?_⟩
  · rw [step_of_nextEvent hev]
    exact stepCore_short hpc
  · obtain ⟨hev, ⟨hpc, -⟩ | ⟨-, -, hf⟩ | ⟨-, hf, -⟩⟩ := step_fault_cases h
    · exact ⟨hev, hpc⟩
    · cases hf
    · cases hf

/-- Settles O8. -/
theorem illegalWordsFaultWithTheirAddress : Obligations.IllegalWordsFaultWithTheirAddress := by
  refine fun s => ⟨fun hev hpc hill => ?_, fun addr raw h => ?_⟩
  · obtain ⟨why, hdec⟩ := (illegalWordsAreTheOnesOfTheTable _).2 hill
    rw [step_of_nextEvent hev]
    exact stepCore_of_illegal hpc hdec
  · obtain ⟨hev, ⟨-, hf⟩ | ⟨hpc, hill, -⟩ | ⟨-, hf, -⟩⟩ := step_fault_cases h
    · cases hf
    · exact ⟨hev, hpc, hill⟩
    · cases hf

/-- R44: the bytes of a word are those it was made of. -/
theorem bytesOfWord_wordOfBytes (b0 b1 : Byte) : bytesOfWord (wordOfBytes b0 b1) = (b0, b1) :=
  Prod.ext (BitVec.extractLsb'_append_eq_left) (BitVec.extractLsb'_append_eq_right)

/-- Settles O9: the last two faults record the word at `PC`, so their raw bytes are the two fetched. -/
theorem everyFaultHasOneOfThreeCauses : Obligations.EveryFaultHasOneOfThreeCauses := by
  intro s f h
  have hraw : [(bytesOfWord s.wordAtPc).1, (bytesOfWord s.wordAtPc).2] =
      [s.mem.read (s.pc.toNat % 4096), s.mem.read (s.pc.toNat % 4096 + 1)] := by
    rw [State.wordAtPc, bytesOfWord_wordOfBytes]
  obtain ⟨hev, ⟨hpc, rfl⟩ | ⟨hpc, hill, rfl⟩ | ⟨hpc, rfl, hstore⟩⟩ := step_fault_cases h
  · exact ⟨hev, rfl, .inl ⟨rfl, hpc, rfl⟩⟩
  · exact ⟨hev, rfl, .inr ⟨hpc, hraw, .inl ⟨rfl, hill⟩⟩⟩
  · exact ⟨hev, rfl, .inr ⟨hpc, hraw, .inr ⟨rfl, hstore⟩⟩⟩

/-! ### The shifts (R77, R90, R92) -/

/-- A word of the format XYS, written as a number. -/
theorem encodeXYN_eq_ofNat (fam : Nibble) (x y n : Fin 16) :
    encodeXYN fam x y n = BitVec.ofNat 16 (fam.toNat * 4096 + x.val * 256 + y.val * 16 + n.val) := by
  rw [← encodeXYN_toNat, BitVec.ofNat_toNat, BitVec.setWidth_eq]

/-- R77: every `Y` decodes alike. -/
theorem decodeWord_shr (x y : Reg) : decodeWord (encodeXYN 8 x y 6) = .ok (.shr x) := by
  simp [decodeWord, decodeFamily8]

theorem decodeWord_shl (x y : Reg) : decodeWord (encodeXYN 8 x y 0xE) = .ok (.shl x) := by
  simp [decodeWord, decodeFamily8]

theorem flagOf_toNat (c : Bool) : (flagOf c).toNat = c.toNat := by cases c <;> rfl

theorem lowBitFlag_toNat (b : Byte) : (lowBitFlag b).toNat = b.toNat % 2 := by
  rw [lowBitFlag, flagOf_toNat, BitVec.getLsbD, Nat.toNat_testBit, pow_zero, Nat.div_one]

theorem highBitFlag_toNat (b : Byte) : (highBitFlag b).toNat = b.toNat / 128 := by
  rw [highBitFlag, flagOf_toNat, BitVec.getLsbD, Nat.toNat_testBit]
  omega

/-- What writing a result to `V[X]`, then a flag, and advancing does, as the statements about the ALU say it. -/
theorem setResultAndFlag_advance_spec (s : State) (x : Reg) {result flag : Byte} {r f : Nat} (hr : result.toNat = r)
    (hf : flag.toNat = f) :
    let t := (s.setResultAndFlag x result flag).advance
    (x ≠ 15 → (t.getV x).toNat = r) ∧ t.vf.toNat = f ∧ keepsRegsBut s t [x, 15] ∧ t.pc = s.pc + 2 ∧
      changesOnly s t [.registers] := by
  refine ⟨fun hx => ?_, ?_, fun y hy => ?_, rfl, changesOnly_setResultAndFlag_advance s x _ _⟩
  · simp [hx, hr]
  · rw [vf_setResultAndFlag_advance, hf]
  · obtain ⟨hyx, hy15⟩ : y ≠ x ∧ y ≠ 15 := by simpa using hy
    simp [hyx, hy15]

/-- Settles O28. -/
theorem shiftsSetTheBitShiftedOut : Obligations.ShiftsSetTheBitShiftedOut := by
  intro x y s
  refine ⟨?_, ?_, ⟨_, rfl, setResultAndFlag_advance_spec s x ?_ ?_⟩,
    ⟨_, rfl, setResultAndFlag_advance_spec s x ?_ ?_⟩⟩
  · rw [← decodeWord_shr x y, encodeXYN_eq_ofNat]; congr 2; grind
  · rw [← decodeWord_shl x y, encodeXYN_eq_ofNat]; congr 2; grind
  · simp [Nat.shiftRight_eq_div_pow]
  · exact lowBitFlag_toNat _
  · simp [Nat.shiftLeft_eq]
  · exact highBitFlag_toNat _

end Sys2Proof.Machine

/-! PROOFS. The register and ALU family: the loads and copies, the additions and subtractions, the logic instructions
and RND. -/

namespace Sys2Proof.Machine

/-! ### Instructions that write one register and no flag (R82 to R87) -/

/-- What writing `V[X]` and advancing leaves unchanged, as the statements about the ALU say it. -/
theorem setV_advance_frame (s : State) (x : Reg) (b : Byte) :
    let t := (s.setV x b).advance
    keepsRegsBut s t [x] ∧ t.pc = s.pc + 2 ∧ changesOnly s t [.registers] := by
  refine ⟨fun r hr => ?_, rfl, changesOnly_setV_advance s x b⟩
  have hrx : r ≠ x := by simpa using hr
  simp [hrx]

/-- Settles O23. -/
theorem loadAndCopyWriteOneRegister : Obligations.LoadAndCopyWriteOneRegister := by
  refine fun x y kk s => ⟨⟨_, rfl, ?_, setV_advance_frame s x _⟩, ⟨_, rfl, ?_, setV_advance_frame s x _⟩⟩
  · simp
  · simp

theorem hasWord_addVxKk (x : Reg) (kk : Byte) : hasWord (.addVxKk x kk) (0x7000 + 0x100 * x.val + kk.toNat) :=
  ⟨by simp [encode, encodeXKK_toNat, Nat.mul_comm], by simp [encode, decodeWord]⟩

/-- Settles O24: `VF` is one of the registers kept, unless it is the destination. -/
theorem addImmediateWrapsWithoutFlag : Obligations.AddImmediateWrapsWithoutFlag := by
  intro x kk s
  obtain ⟨hregs, hframe⟩ := setV_advance_frame s x (s.getV x + kk)
  refine ⟨hasWord_addVxKk x kk, _, rfl, ?_, hregs, fun hx => hregs 15 ?_, hframe⟩
  · simp
  · simpa using hx.symm

/-- Settles O25. -/
theorem logicInstructionsWorkBitByBit : Obligations.LogicInstructionsWorkBitByBit := by
  intro x y s
  refine ⟨⟨_, rfl, fun j => ?or, setV_advance_frame s x _⟩, ⟨_, rfl, fun j => ?and, setV_advance_frame s x _⟩,
    ⟨_, rfl, fun j => ?xor, setV_advance_frame s x _⟩⟩
  case or => simp
  case and => simp
  case xor => simp

/-! ### Additions and subtractions of registers (R88, R89, R91) -/

theorem carryFlag_eq_ite (a b : Byte) : carryFlag a b = if 256 ≤ a.toNat + b.toNat then 1 else 0 := by
  simp [carryFlag, flagOf]

theorem greaterFlag_eq_ite (a b : Byte) : greaterFlag a b = if b.toNat < a.toNat then 1 else 0 := by
  simp [greaterFlag, flagOf]

/-- A byte's difference wraps modulo 256. -/
theorem byte_sub_toNat (a b : Byte) : (a - b).toNat = (a.toNat + 256 - b.toNat) % 256 := by
  have := b.isLt
  rw [BitVec.toNat_sub]
  omega

/-- `setResultAndFlag_advance_spec` for a flag that is given as a byte. -/
theorem setResultAndFlag_advance_byte_spec (s : State) (x : Reg) {result flag f : Byte} {r : Nat}
    (hr : result.toNat = r) (hf : flag = f) :
    let t := (s.setResultAndFlag x result flag).advance
    (x ≠ 15 → (t.getV x).toNat = r) ∧ t.vf = f ∧ keepsRegsBut s t [x, 15] ∧ t.pc = s.pc + 2 ∧
      changesOnly s t [.registers] := by
  obtain ⟨hresult, hflag, hframe⟩ := setResultAndFlag_advance_spec s x hr (congrArg BitVec.toNat hf)
  exact ⟨hresult, BitVec.eq_of_toNat_eq hflag, hframe⟩

/-- Settles O26. -/
theorem addRegistersSetsTheCarry : Obligations.AddRegistersSetsTheCarry :=
  fun _ _ s => ⟨_, rfl, setResultAndFlag_advance_byte_spec s _ (BitVec.toNat_add _ _) (carryFlag_eq_ite _ _)⟩

/-- Settles O27: SUBN is SUB with the operands exchanged. -/
theorem subtractionsSetTheStrictComparison : Obligations.SubtractionsSetTheStrictComparison :=
  fun _ _ s =>
    ⟨⟨_, rfl, setResultAndFlag_advance_byte_spec s _ (byte_sub_toNat _ _) (greaterFlag_eq_ite _ _)⟩,
     ⟨_, rfl, setResultAndFlag_advance_byte_spec s _ (byte_sub_toNat _ _) (greaterFlag_eq_ite _ _)⟩⟩

/-! ### The random byte (R93, R176) -/

section
variable {s : State}

theorem rndNext_of_injected {r : Byte} {rest : List Byte} (h : s.env.rndQueue = r :: rest) : s.rndNext = r := by
  simp [State.rndNext, h]

theorem rndTaken_env_of_injected {r : Byte} {rest : List Byte} (h : s.env.rndQueue = r :: rest) :
    s.rndTaken.env = { s.env with rndQueue := rest } := by
  simp [State.rndTaken, h]

theorem rndNext_of_none_injected (h : s.env.rndQueue = []) : s.rndNext = Config.rndByte s.env.rndDraws := by
  simp [State.rndNext, h]

theorem rndTaken_env_of_none_injected (h : s.env.rndQueue = []) :
    s.rndTaken.env = { s.env with rndDraws := s.env.rndDraws + 1 } := by
  simp [State.rndTaken, h]

end

theorem hasWord_rnd (x : Reg) (kk : Byte) : hasWord (.rnd x kk) (0xC000 + 0x100 * x.val + kk.toNat) :=
  ⟨by simp [encode, encodeXKK_toNat, Nat.mul_comm], by simp [encode, decodeWord]⟩

/-- Settles O29: the register and the environment after the draw, then the two sources of the byte. -/
theorem randomAndMasksTheDraw : Obligations.RandomAndMasksTheDraw := by
  intro x kk s
  have h : exec (.rnd x kk) s = .next (s.rndTaken.setV x (kk &&& s.rndNext)).advance := rfl
  have hv : (s.rndTaken.setV x (kk &&& s.rndNext)).advance.getV x = kk &&& s.rndNext := by simp
  obtain ⟨hsched, hout, -⟩ := rndTaken_env s
  refine ⟨hasWord_rnd x kk, _, h, pcAfterEveryInstruction _ _ _ h, fun r hr => ?_, exec_changesOnly h, hsched, hout,
    fun j hj => ?_, fun r rest hq => ?_, fun hq => ?_⟩
  · exact exec_keeps_other_register h (by simpa [isDestination] using hr) nofun
  · simp [hv, hj]
  · rw [hv, rndNext_of_injected hq, advance_env, setV_env, rndTaken_env_of_injected hq]
    exact ⟨rfl, rfl, rfl⟩
  · rw [hv, rndNext_of_none_injected hq, advance_env, setV_env, rndTaken_env_of_none_injected hq]
    exact ⟨rfl, hq, rfl⟩

end Sys2Proof.Machine

/-! PROOFS. The control flow family: the call stack's Push and Pop, SYS, the jumps, RET, and a CALL that comes back. -/

namespace Sys2Proof.Machine

/-! ### The call stack (R18, R100, R101) -/

section
variable (s : State)

/-- The cursor advances modulo 16. -/
theorem push_sp_toNat (addr : Word) : (s.push addr).sp.toNat = (s.sp.toNat + 1) % 16 := BitVec.toNat_add _ _

/-- The cursor moves back modulo 16: 0 becomes 15. -/
theorem pop_sp_toNat : s.pop.2.sp.toNat = (s.sp.toNat + 15) % 16 := by
  rw [pop_sp, BitVec.toNat_sub, Nat.add_comm]
  rfl

/-- Each of a run of pushes advances the cursor by one. -/
theorem foldl_push_sp (addrs : List Word) : (addrs.foldl State.push s).sp = s.sp + BitVec.ofNat 4 addrs.length := by
  induction addrs generalizing s with
  | nil => simp
  | cons a rest ih =>
    rw [List.foldl_cons, ih, push_sp, List.length_cons, BitVec.ofNat_add]
    ac_rfl

/-- A run of pushes keeps the cell that lies at least as far above the cursor, modulo 16, as the run is long. -/
theorem stackCell_foldl_push_of_le {j : Nibble} {addrs : List Word} (h : addrs.length ≤ (j - s.sp).toNat) :
    (addrs.foldl State.push s).stackCell j = s.stackCell j := by
  induction addrs generalizing s with
  | nil => rfl
  | cons a rest ih =>
    rw [List.length_cons] at h
    have hj : j ≠ s.sp := by bv_omega
    have hrest : rest.length ≤ (j - (s.push a).sp).toNat := by rw [push_sp]; bv_omega
    rw [List.foldl_cons, ih _ hrest, stackCell_push, if_neg hj]

end

/-- Settles O21: after a push its cell lies fifteen above the cursor, so fifteen more pushes keep it; and they bring
the cursor back to it. -/
theorem pushStoresAtTheCursorAndWraps : Obligations.PushStoresAtTheCursorAndWraps := by
  refine fun s addr => ⟨?_, fun j hj => ?_, push_sp_toNat s addr, changesOnly_push s addr, rfl,
    fun first others hlen => ⟨?_, ?_⟩⟩
  · simp
  · simp [hj]
  · have hdist : others.length ≤ (s.sp - (s.push first).sp).toNat := by rw [push_sp, hlen]; bv_omega
    rw [stackCell_foldl_push_of_le _ hdist]
    simp
  · have hback : (others.foldl State.push (s.push first)).sp = s.sp := by
      rw [foldl_push_sp, push_sp, hlen]; bv_omega
    rw [stackCell_push, if_pos hback.symm]

/-- Settles O22. -/
theorem popGivesTheCellBelowTheCursor : Obligations.PopGivesTheCellBelowTheCursor :=
  fun s => ⟨pop_sp_toNat s, rfl, stackCell_pop s, changesOnly_pop s, rfl⟩

/-! ### SYS, the jumps and RET (R102 to R104, R110) -/

theorem encode_sys_toNat (nnn : Addr) : (encode (.sys nnn)).toNat = nnn.toNat :=
  (encodeNNN_toNat 0 nnn).trans (Nat.zero_add _)

/-- Settles O31: the report's word is the operand, since family 0 adds nothing to it. -/
theorem sysReportsAndDoesNothingElse : Obligations.SysReportsAndDoesNothingElse := by
  refine fun nnn s => ⟨fun hwf => ⟨encode_sys_toNat nnn, decodingAnEncodedInstructionGivesItBack _ hwf⟩, ?_⟩
  have hword : BitVec.ofNat 16 nnn.toNat = encode (.sys nnn) := by
    rw [← encode_sys_toNat, BitVec.ofNat_toNat, BitVec.setWidth_eq]
  rw [hword]
  rfl

theorem hasWord_jp (nnn : Addr) : hasWord (.jp nnn) (0x1000 + nnn.toNat) :=
  ⟨encodeNNN_toNat 1 nnn, decodingAnEncodedInstructionGivesItBack (.jp nnn) rfl⟩

/-- Settles O32. -/
theorem jumpSetsThePc : Obligations.JumpSetsThePc :=
  fun nnn s => ⟨hasWord_jp nnn, _, rfl, zextAddr_toNat nnn, changesOnly_jump s _⟩

/-- Settles O37: 12 bits and 8 bits add without a carry out of 16. -/
theorem jumpWithOffsetIsNotMasked : Obligations.JumpWithOffsetIsNotMasked :=
  fun nnn s => ⟨_, rfl, offsetTarget_toNat nnn _, changesOnly_jump s _⟩

/-- Settles O34: RET is a pop and a jump to what it gives. -/
theorem returnPopsThePc : Obligations.ReturnPopsThePc :=
  ⟨⟨rfl, rfl⟩, fun s => ⟨_, rfl, pop_sp_toNat s, rfl, stackCell_pop s, (changesOnly_pop s).jump _⟩⟩

/-! ### CALL, then RET (R103, R105) -/

/-- The word fetched is that of the two bytes at `PC`, when `PC` is below the last address. -/
theorem wordAtPc_of_bytes {s : State} {n : Nat} {b0 b1 : Byte} (hpc : s.pc.toNat = n) (hn : n < 4096)
    (h0 : s.mem.read n = b0) (h1 : s.mem.read (n + 1) = b1) : s.wordAtPc = wordOfBytes b0 b1 := by
  rw [State.wordAtPc, hpc, Nat.mod_eq_of_lt hn, h0, h1]

/-- Settles O35: the first step is the CALL, which leaves memory, so the second fetches the RET at its target; and RET
undoes the CALL's push (O33). -/
theorem callThenReturnComesBack : Obligations.CallThenReturnComesBack := by
  intro s nnn hpc hnnn hdec h0 h1
  obtain ⟨-, u, hcall, hupc, -, hcells, -, hframe, hret⟩ := callPushesTheNextAddress nnn s
  have hmem : ∀ a, u.mem.read a = s.mem.read a := hframe .memory (by decide)
  have henv : u.env = s.env := hframe .environment (by decide)
  have hfetch : u.pc.toNat % 4096 ≠ 4095 := by
    rw [hupc, Nat.mod_eq_of_lt nnn.isLt]
    exact hnnn
  have hword : u.wordAtPc = 0x00EE :=
    wordAtPc_of_bytes hupc nnn.isLt ((hmem _).trans h0) ((hmem _).trans h1)
  have hfirst : stepCore s = .next u := (stepCore_of_decode hpc hdec).trans hcall
  have hsecond : stepCore u = .next { u with pc := s.pc + 2, sp := s.sp } :=
    (stepCore_of_decode hfetch (hword ▸ rfl : decodeWord u.wordAtPc = .ok .ret)).trans hret
  refine ⟨u, _, hfirst, hsecond, fun hsched => ⟨?_, ?_⟩, BitVec.toNat_add _ _, rfl, ?_, hcells⟩
  · rw [step_of_empty_schedule hsched, hfirst]
  · rw [step_of_empty_schedule (henv ▸ hsched), hsecond]
  · exact (hframe.trans (exec_changesOnly hret)).mono (by simp [mayWrite])

end Sys2Proof.Machine

/-! PROOFS. The index register and memory family: the loads of `I` and the addition to it, the two stores at `I`, and the
range load, which brings back what the range store stored. -/

namespace Sys2Proof.Machine

/-! ### Instructions that write `I` alone (R120 to R122) -/

/-- What writing `I` and advancing does, as the statements about the index say it. -/
theorem setIndex_advance_spec (s : State) {a : Word} {n : Nat} (ha : a.toNat = n) :
    let t := State.advance { s with i := a }
    t.i.toNat = n ∧ t.pc = s.pc + 2 ∧ changesOnly s t [.index] :=
  ⟨ha, rfl, (changesOnly_setIndex s a).jump _⟩

/-- Settles O40. -/
theorem indexLoadsAddressAndGlyph : Obligations.IndexLoadsAddressAndGlyph :=
  fun nnn _ s =>
    ⟨⟨_, rfl, setIndex_advance_spec s (zextAddr_toNat nnn)⟩, ⟨_, rfl, setIndex_advance_spec s (glyphAddr_toNat _)⟩⟩

/-- The word of an instruction of family F as a number (R69). -/
theorem encodeXKK_familyF_toNat (x : Reg) (kk : Byte) :
    (encodeXKK 0xF x kk).toNat = 0xF000 + kk.toNat + 0x100 * x.val := by
  have hfam : (0xF : Nibble).toNat = 15 := rfl
  rw [encodeXKK_toNat, hfam]
  omega

theorem hasWord_addIVx (x : Reg) : hasWord (.addIVx x) (0xF01E + 0x100 * x.val) :=
  ⟨encodeXKK_familyF_toNat x 0x1E, decodingAnEncodedInstructionGivesItBack (.addIVx x) rfl⟩

theorem index_add_byte_toNat (i : Word) (b : Byte) : (i + zextByte b).toNat = (i.toNat + b.toNat) % 65536 := by
  rw [BitVec.toNat_add, zextByte_toNat]

/-- Settles O41: `VF` is kept with every other register. -/
theorem addToIndexWrapsAtSixteenBits : Obligations.AddToIndexWrapsAtSixteenBits := by
  intro x s
  obtain ⟨hi, hpc, hframe⟩ := setIndex_advance_spec s (index_add_byte_toNat s.i (s.getV x))
  exact ⟨hasWord_addIVx x, _, rfl, hi, hframe .registers (by decide) Config.flagReg, hpc, hframe⟩

/-! ### The stores (R123, R124, R193) -/

/-- What a store instruction that fits does: each byte in its place and nothing else but `PC`. -/
theorem storeAtI_fits_spec {bytes : List Byte} {n : Nat} {s : State} (i : Instr) (hn : bytes.length = n)
    (h : startAddr s.i + n ≤ 4096) :
    ∃ t, storeAtI i bytes s = .next t ∧
      (∀ (k : Nat) (b : Byte), bytes[k]? = some b → t.mem.read (startAddr s.i + k) = b) ∧
      keepsMemoryOutside s t (startAddr s.i) n ∧ t.pc = s.pc + 2 ∧ changesOnly s t [.memory] := by
  subst hn
  have hnext : storeAtI i bytes s = .next _ := storeAtI_fits h
  exact ⟨_, hnext, fun _ _ => storeAtI_read_inside hnext, storeAtI_keepsMemoryOutside hnext, rfl, changesOnly_storeAtI hnext⟩

theorem hasWord_ldBVx (x : Reg) : hasWord (.ldBVx x) (0xF033 + 0x100 * x.val) :=
  ⟨encodeXKK_familyF_toNat x 0x33, decodingAnEncodedInstructionGivesItBack (.ldBVx x) rfl⟩

/-- Settles O42: each digit is a number below 256, so its byte stands for it, and a byte has at most two hundreds. -/
theorem decimalStoreWritesThreeDigits : Obligations.DecimalStoreWritesThreeDigits := by
  refine fun x s => ⟨hasWord_ldBVx x, fun hfits => ?_,
    fun hover => storeAtI_overruns (bytes := bcdDigits (s.getV x)) hover⟩
  obtain ⟨t, hnext, hread, hframes⟩ := storeAtI_fits_spec (bytes := bcdDigits (s.getV x)) (.ldBVx x) rfl hfits
  have hdigit : ∀ k d : Nat, (bcdDigits (s.getV x))[k]? = some (BitVec.ofNat 8 d) → d < 256 →
      (t.mem.read (startAddr s.i + k)).toNat = d := by
    intro k d hbyte hd
    rw [hread k _ hbyte, BitVec.toNat_ofNat, Nat.mod_eq_of_lt hd]
  have hlt : (s.getV x).toNat < 256 := (s.getV x).isLt
  have hhundreds : (t.mem.read (s.i.toNat % 4096)).toNat = (s.getV x).toNat / 100 := hdigit 0 _ rfl (by omega)
  exact ⟨t, hnext, hhundreds, hdigit 1 _ rfl (by omega), hdigit 2 _ rfl (by omega), by omega, hframes⟩

/-- Settles O43. -/
theorem registerStoreWritesTheRange : Obligations.RegisterStoreWritesTheRange := by
  refine fun x s => ⟨fun hfits => ?_, fun hover => ?_⟩
  · obtain ⟨t, hnext, hread, hframes⟩ := storeAtI_fits_spec (.ldMiVx x) (regsUpTo_length s x) hfits
    exact ⟨t, hnext, fun j hj => hread _ _ (regsUpTo_getElem? s x j hj), hframes⟩
  · rw [← regsUpTo_length s x] at hover
    exact storeAtI_overruns hover

/-! ### The range load (R125) -/

section
variable {x r : Reg} {s t : State} (h : exec (.ldVxMi x) s = .next t)
include h

/-- A register of the range gets its byte of the clamped read, if there is one. -/
theorem getV_execLdVxMi : t.getV r = (s.memRead s.i (x.val + 1))[r.val]?.getD (s.getV r) := by
  cases h
  simp [State.getV, loadRegs_getElem]

theorem getV_execLdVxMi_of_le (hr : r ≤ x) (hmem : startAddr s.i + r.val < 4096) :
    t.getV r = s.mem.read (startAddr s.i + r.val) := by
  have hrx : r.val ≤ x.val := hr
  rw [getV_execLdVxMi h, memRead_getElem? s s.i (x.val + 1) r.val (by omega), Option.getD_some]

/-- A register whose byte would lie past the end of memory keeps its value (D16). -/
theorem getV_execLdVxMi_of_past_end (hmem : 4096 ≤ startAddr s.i + r.val) : t.getV r = s.getV r := by
  have hlen : (s.memRead s.i (x.val + 1)).length ≤ r.val := by rw [memRead_length]; omega
  rw [getV_execLdVxMi h, List.getElem?_eq_none hlen, Option.getD_none]

end

/-- Settles O44. -/
theorem registerLoadReadsTheRange : Obligations.RegisterLoadReadsTheRange := by
  intro x s
  have h : exec (.ldVxMi x) s = .next _ := rfl
  refine ⟨_, h, fun j hj hmem => getV_execLdVxMi_of_le h hj hmem, fun j hkept => ?_, rfl, exec_changesOnly h⟩
  rcases hkept with hgt | hpast
  · exact getV_execLdVxMi_of_gt h hgt
  · exact getV_execLdVxMi_of_past_end h hpast

/-- Settles O45: the store leaves `I`, and a store that fits has all its bytes below 4096, so the load (O44) reads each
of them where the store (O43) put it. -/
theorem storeThenLoadRestoresTheRegisters : Obligations.StoreThenLoadRestoresTheRegisters := by
  intro x s hfits
  obtain ⟨t, hstore, hstored, -, -, hframe⟩ := (registerStoreWritesTheRange x s).1 hfits
  refine ⟨t, hstore, fun u hmem hi => ?_⟩
  obtain ⟨w, hload, hloaded, hkept, -, -⟩ := registerLoadReadsTheRange x u
  have hui : u.i = s.i := hi.trans (hframe .index (by decide))
  refine ⟨w, hload, fun j hj => ?_, fun j hj => hkept j (.inl hj)⟩
  have hbelow : s.i.toNat % 4096 + j.val < 4096 := by
    have hjx : j.val ≤ x.val := hj
    simp only [storeFits, storeLength] at hfits
    omega
  rw [hui, hmem] at hloaded
  exact (hloaded j hj hbelow).trans (hstored j hj)

end Sys2Proof.Machine

/-! PROOFS. The display family: CLS, the flag of DRW as a comparison of bit counts, and a sprite drawn twice. -/

namespace Sys2Proof.Machine

/-! ### CLS (R140) -/

/-- Settles O46: `VF` is kept with every other register. -/
theorem clearZeroesTheFramebuffer : Obligations.ClearZeroesTheFramebuffer := by
  refine ⟨⟨rfl, rfl⟩, fun s => ?_⟩
  have h : exec .cls s = .next _ := rfl
  have hframe : changesOnly s _ [.display] := exec_changesOnly h
  exact ⟨_, h, fun k => Vector.getElem_replicate k.isLt, hframe .registers (by decide) Config.flagReg, rfl, hframe⟩

/-! ### The flag of DRW (R143, D20) -/

/-- The two counts a draw keeps are the bit counts of the touched bytes in the framebuffers before and after it. -/
theorem drawSprite_counts (x y : Reg) (n : Fin 16) (s : State) :
    let bytes := touchedBytes ((s.getV x).toNat % 64) ((s.getV y).toNat % 32) (rowsRead s n)
    (drawSprite x y n s).before = bitCount s.fb bytes ∧
      (drawSprite x y n s).after = bitCount (drawSprite x y n s).fb bytes := by
  have hcounts := drawRows_counts (s.memRead s.i n.val) { fb := s.fb, before := 0, after := 0 }
    (column (s.getV x)) (row (s.getV y)).val
  rwa [memRead_rows, Nat.zero_add, Nat.zero_add] at hcounts

theorem vf_execDrw {x y : Reg} {n : Fin 16} {s t : State} (h : exec (.drw x y n) s = .next t) :
    let bytes := touchedBytes ((s.getV x).toNat % 64) ((s.getV y).toNat % 32) (rowsRead s n)
    t.vf = if bitCount t.fb bytes < bitCount s.fb bytes then 1 else 0 := by
  obtain ⟨hbefore, hafter⟩ := drawSprite_counts x y n s
  have hfb : t.fb = (drawSprite x y n s).fb := by cases h; rfl
  rw [vf_eq, getV_execDrw h, if_pos rfl, hbefore, hafter, hfb]
  simp only [collisionFlag, flagOf, decide_eq_true_eq]

/-- Settles O48. -/
theorem drawFlagComparesTheBitCounts : Obligations.DrawFlagComparesTheBitCounts :=
  fun _ _ _ _ => ⟨_, rfl, vf_execDrw rfl⟩

/-! ### Bit counts of cleared and of set bytes (R3, R20) -/

section
variable {fb fb' : Vector Byte 256}

theorem bitCount_eq_zero {bytes : List Nat} (h : ∀ k ∈ bytes, fb.toList.getD k 0 = 0) : bitCount fb bytes = 0 := by
  refine List.sum_eq_zero fun c hc => ?_
  obtain ⟨k, hk, rfl⟩ := List.mem_map.1 hc
  rw [h k hk, popcount_zero]

/-- A pixel that is set counts in any list of bytes that names its own. -/
theorem bitCount_pos_of_pixel {bytes : List Nat} {px : Fin 64} {py : Fin 32} (hpixel : pixel fb px py = true)
    (hmem : (fbIndex py (firstByte px)).val ∈ bytes) : 0 < bitCount fb bytes := by
  have hpos : 0 < popcount (fb.toList.getD (fbIndex py (firstByte px)).val 0) := by
    rw [fb_getD_fin]
    exact popcount_pos _ (7 - px.val % 8) (by omega) hpixel
  exact hpos.trans_le (List.le_sum_of_mem (List.mem_map_of_mem hmem))

theorem pixel_eq_false_of_byte_eq_zero {px : Fin 64} {py : Fin 32}
    (h : fb.toList.getD (fbIndex py (firstByte px)).val 0 = 0) : pixel fb px py = false := by
  rw [fb_getD_fin] at h
  simp [pixel, h]

/-- The pixels are all of the framebuffer: bit `j` of byte `b` of a row is its pixel at column `b * 8 + (7 - j)`. -/
theorem fb_ext_of_pixels (h : ∀ px py, pixel fb px py = pixel fb' px py) : fb = fb' := by
  refine Vector.ext fun k hk => BitVec.eq_of_getLsbD_eq fun j hj => ?_
  obtain ⟨y, b, hkb⟩ := exists_fbIndex ⟨k, hk⟩
  obtain rfl : k = (fbIndex y b).val := congrArg Fin.val hkb
  have hpixel := h ⟨b.val * 8 + (7 - j), by omega⟩ y
  have hbyte : firstByte ⟨b.val * 8 + (7 - j), by omega⟩ = b := Fin.ext (by simp only [firstByte]; omega)
  have hbit : 7 - (b.val * 8 + (7 - j)) % 8 = j := by omega
  simpa only [pixel, hbyte, hbit] using hpixel

end

/-! ### A sprite drawn twice (S8) -/

theorem rowsRead_congr {s t : State} (hi : t.i = s.i) : rowsRead t = rowsRead s := by
  funext n
  rw [rowsRead, rowsRead, hi]

/-- What a sprite sets at a place depends on memory and `I` alone. -/
theorem spriteBit_congr {s t : State} (hmem : ∀ a, t.mem.read a = s.mem.read a) (hi : t.i = s.i) :
    spriteBit t = spriteBit s := by
  funext x0 y0 n px py
  rw [spriteBit, spriteBit, rowsRead_congr hi, hi, hmem]

/-- Settles O49: both draws have the same sprite at the same place, since the first leaves memory, `I`, `V[X]` and
`V[Y]`; so every pixel is flipped twice or not at all (O47), and the flags compare the count on the way there and back
(O48). -/
theorem drawingTwiceRestoresTheDisplay : Obligations.DrawingTwiceRestoresTheDisplay := by
  intro x y n s hx15 hy15
  obtain ⟨t, ht, htpixel, hkept, -, hframe⟩ := drawXorsTheSpriteOntoThePixels x y n s
  obtain ⟨u, hu, hupixel, -⟩ := drawXorsTheSpriteOntoThePixels x y n t
  have hx : t.getV x = s.getV x := hkept x (by simpa using hx15)
  have hy : t.getV y = s.getV y := hkept y (by simpa using hy15)
  have hi : t.i = s.i := hframe .index (by decide)
  rw [hx, hy, spriteBit_congr (hframe .memory (by decide)) hi] at hupixel
  have hfb : u.fb = s.fb := fb_ext_of_pixels fun px py => by
    rw [hupixel, htpixel, Bool.xor_assoc, Bool.xor_self, Bool.xor_false]
  refine ⟨t, u, ht, hu, fun k => by rw [hfb], fun hcleared ⟨px, py, hbit⟩ => ?_⟩
  have hbefore := bitCount_eq_zero hcleared
  have htouched := spriteBit_touched s (column (s.getV x)) (row (s.getV y)) n px py hbit
  have hset : pixel t.fb px py = true := by
    rw [htpixel, pixel_eq_false_of_byte_eq_zero (hcleared _ htouched), Bool.false_xor, hbit]
  have hbetween := bitCount_pos_of_pixel hset htouched
  have huvf := vf_execDrw hu
  rw [hx, hy, rowsRead_congr hi, hfb] at huvf
  exact ⟨(vf_execDrw ht).trans (if_neg (hbefore ▸ Nat.not_lt_zero _)),
    huvf.trans (if_pos (hbefore.trans_lt hbetween))⟩

end Sys2Proof.Machine

/-! PROOFS. The keyboard and timer family: the load that waits for a key and the core it holds, the key skips, and the
timer moves. -/

namespace Sys2Proof.Machine

/-! ### LD Vx,K and the hold (R152, R153) -/

theorem execLdVxK_of_no_key {s : State} (hkey : s.key = none) (x : Reg) : exec (.ldVxK x) s = .next s := by
  simp [exec, execLdVxK, hkey]

theorem execLdVxK_of_key {s : State} {k : Nibble} (hkey : s.key = some k) (x : Reg) :
    exec (.ldVxK x) s = .next (s.setV x (zextKey k)).advance := by
  simp [exec, execLdVxK, hkey]

/-- Settles O51. -/
theorem keyLoadHoldsUntilAKeyIsSet : Obligations.KeyLoadHoldsUntilAKeyIsSet := by
  refine fun x s => ⟨fun hkey => execLdVxK_of_no_key hkey x, fun k hkey => ?_⟩
  refine ⟨_, execLdVxK_of_key hkey x, ?_, hkey, setV_advance_frame s x _⟩
  simp

theorem stepCore_of_held {s : State} (h : s.held) : stepCore s = .next s := by
  obtain ⟨hkey, hpc, x, hdec⟩ := h
  exact (stepCore_of_decode hpc hdec).trans (execLdVxK_of_no_key hkey x)

/-- Settles O17: the schedule is no part of being held, so the core is held with the event taken too; and `key_set` leaves
`PC` and the word it addresses, so the next step is the load with a key (O51). -/
theorem aHeldCoreWaitsForAKey : Obligations.AHeldCoreWaitsForAKey := by
  intro s hheld
  have hcore : stepCore s = .next s := stepCore_of_held hheld
  refine ⟨hcore, fun hsched => ?_, fun hev => ?_, fun k => ?_⟩
  · rw [step_of_empty_schedule hsched, hcore]
  · rw [step_of_nextEvent hev]
    exact stepCore_of_held (s := s.eventTaken) hheld
  · obtain ⟨-, hpc, x, hdec⟩ := hheld
    obtain ⟨t, hexec, hcode, hkey, -, hnpc, -⟩ := (keyLoadHoldsUntilAKeyIsSet x (s.keySet k)).2 k rfl
    have hrelease : stepCore (s.keySet k) = .next t := (stepCore_of_decode (s := s.keySet k) hpc hdec).trans hexec
    refine ⟨x, t, hdec, hrelease, fun hsched => ?_, hcode, hnpc, hkey⟩
    rw [step_of_empty_schedule (s := s.keySet k) hsched, hrelease]

/-! ### The key skips (R150, R151) -/

/-- Settles O50: the frame and `PC` of each skip by the statements about all instructions (O39, O38). -/
theorem keySkipsCompareTheWholeByte : Obligations.KeySkipsCompareTheWholeByte := by
  intro x s
  have hskp : exec (.skp x) s = .next _ := rfl
  have hsknp : exec (.sknp x) s = .next _ := rfl
  have hpcSkp := pcAfterEveryInstruction _ _ _ hskp
  have hpcSknp := pcAfterEveryInstruction _ _ _ hsknp
  refine ⟨_, _, hskp, hsknp, exec_changesOnly hskp, exec_changesOnly hsknp, fun hmatch => ?_, fun hnomatch => ?_⟩
  · exact ⟨hpcSkp.trans (if_pos hmatch), hpcSknp.trans (if_pos hmatch)⟩
  · exact ⟨hpcSkp.trans (if_neg hnomatch), hpcSknp.trans (if_neg hnomatch)⟩

/-! ### The timer moves (R154 to R156) -/

/-- Settles O53. -/
theorem timerMovesCopyOneByte : Obligations.TimerMovesCopyOneByte := by
  refine fun x s => ⟨⟨_, rfl, ?_, setV_advance_frame s x s.dt⟩,
    ⟨_, rfl, rfl, rfl, (changesOnly_setDelay s _).jump _⟩, ⟨_, rfl, rfl, rfl, (changesOnly_setSound s _).jump _⟩⟩
  simp

end Sys2Proof.Machine

/-! PROOFS. The environment's operations: the schedule, the tick, the program load and its refusal, and the framebuffer
read; and the core that a finished program leaves where it is. -/

namespace Sys2Proof.Machine

/-! ### Scheduled events (R170 to R178) -/

/-- Settles O6: the first clause holds of every event, and the next four are what `perform` does for one of them. -/
theorem stepPerformsTheFirstScheduledEvent : Obligations.StepPerformsTheFirstScheduledEvent := by
  intro s rest rested left
  have hperform : ∀ e, step (rested e) = perform e left := fun _ => step_of_schedule rfl
  exact ⟨hperform, hperform .step, fun k => hperform (.keySet k), hperform .keyClear, hperform .reset,
    step_of_empty_schedule⟩

/-- A scheduled operation of the environment changes the schedule and what its rule gives it (O57), and never `PC`. -/
theorem step_scheduled_frame {e : Event} {rest : List Event} {s t : State} (hsched : s.env.schedule = e :: rest)
    (h : step s = .next t) (hstep : e ≠ .step) (hreset : e ≠ .reset) :
    t.pc = s.pc ∧ changesOnly s t (.environment :: eventMayWrite e) := by
  rw [step_of_schedule hsched] at h
  obtain ⟨hpc, hframe, -⟩ := environmentEventsStayInTheirPlace e _ t h hstep hreset
  exact ⟨hpc, (changesOnly_setEnv s _).trans hframe⟩

/-- Settles O54. -/
theorem timerTickCountsDownToZero : Obligations.TimerTickCountsDownToZero := by
  intro s rest hsched
  have h : step s = .next _ := step_of_schedule hsched
  obtain ⟨hpc, hframe⟩ := step_scheduled_frame hsched h nofun nofun
  exact ⟨_, h, tick_toNat s.dt, tick_toNat s.st, rfl, hpc, hframe.mono (by simp [eventMayWrite])⟩

/-- Settles O56: the frame handed out is the one of the state with the event taken, which is the same. -/
theorem framebufferReadChangesNothing : Obligations.FramebufferReadChangesNothing := by
  intro s rest hsched
  have h : step s = .next _ := step_of_schedule hsched
  obtain ⟨hpc, hframe⟩ := step_scheduled_frame hsched h nofun nofun
  exact ⟨_, h, rfl, hpc, hframe.mono (by simp [eventMayWrite])⟩

/-! ### The program load and its refusal (R171, D30) -/

section
variable {bytes : List Byte}

theorem startAddr_progStart : startAddr Config.progStart = 0x200 := rfl

/-- 3584 bytes is what lies between 0x200 and the end of memory. -/
theorem loadProgram_fits (s : State) (h : bytes.length ≤ 3584) :
    ∃ t, s.memWrite Config.progStart bytes = some t ∧ s.loadProgram bytes = .next t := by
  have hfits : startAddr Config.progStart + bytes.length ≤ 4096 := by rw [startAddr_progStart]; omega
  exact ⟨_, memWrite_fits hfits, by simp only [State.loadProgram, memWrite_fits hfits]⟩

theorem loadProgram_overlong (s : State) (h : 3584 < bytes.length) :
    s.loadProgram bytes = .refused (.launchRefused bytes.length) := by
  have hover : 4096 < startAddr Config.progStart + bytes.length := by rw [startAddr_progStart]; omega
  simp only [State.loadProgram, memWrite_none.2 hover]

end

/-- Settles O55: an image that fits is an accepted `MemWrite` at 0x200 (O19). -/
theorem loadProgramWritesTheImage : Obligations.LoadProgramWritesTheImage := by
  refine fun s bytes rest hsched => ⟨fun hfits => ?_, fun hover => ?_⟩
  · obtain ⟨t, hwrite, hload⟩ := loadProgram_fits { s with env := { s.env with schedule := rest } } hfits
    have h : step s = .next t := (step_of_schedule hsched).trans hload
    obtain ⟨hpc, hframe⟩ := step_scheduled_frame hsched h nofun nofun
    have henv : t.env = { s.env with schedule := rest } := by
      obtain ⟨-, rfl⟩ := memWrite_some hwrite
      rfl
    exact ⟨t, h, fun _ _ => memWrite_read_inside hwrite, memWrite_keepsMemoryOutside hwrite, henv, hpc,
      hframe.mono (by simp [eventMayWrite])⟩
  · rw [step_of_schedule hsched]
    exact loadProgram_overlong _ hover

/-- The core refuses nothing: its step is a fault or an instruction. -/
theorem stepCore_not_refused (s : State) (r : Refusal) : stepCore s ≠ .refused r := by
  obtain ⟨-, hf⟩ | ⟨-, _, -, hf⟩ | ⟨-, i, -, hx⟩ := stepCore_cases s
  · simp [hf]
  · simp [hf]
  · exact hx ▸ exec_not_refused i s r

/-- Settles O10, event by event: only the program load can refuse, and an image that fits is loaded. -/
theorem onlyAnOverlongImageIsRefused : Obligations.OnlyAnOverlongImageIsRefused := by
  intro s r h
  rw [step] at h
  cases hev : s.nextEvent <;> rw [hev] at h
  case step => exact absurd h (stepCore_not_refused _ r)
  case loadProgram bytes =>
    by_cases hfits : bytes.length ≤ 3584
    · obtain ⟨t, -, hload⟩ := loadProgram_fits s.eventTaken hfits
      cases hload.symm.trans h
    · have hover : 3584 < bytes.length := not_le.1 hfits
      cases (loadProgram_overlong s.eventTaken hover).symm.trans h
      exact ⟨bytes, rfl, hover, rfl⟩
  all_goals cases h

/-! ### The finished program (R104, R180, D41) -/

/-- The word of a JP to `PC` decodes to a jump whose target is `PC`. -/
theorem decodeWord_of_finished {s : State} (h : s.finished) :
    ∃ nnn, decodeWord s.wordAtPc = .ok (.jp nnn) ∧ zextAddr nnn = s.pc := by
  obtain ⟨hpc, hword⟩ := h
  have hnnn : (s.pc.setWidth 12).toNat = s.pc.toNat := by
    rw [BitVec.toNat_setWidth]
    exact Nat.mod_eq_of_lt (by omega)
  obtain ⟨hencode, hdecode⟩ := hasWord_jp (s.pc.setWidth 12)
  have hjp : encode (.jp (s.pc.setWidth 12)) = s.wordAtPc :=
    BitVec.eq_of_toNat_eq (by rw [hencode, hnnn, hword])
  exact ⟨_, hjp ▸ hdecode, BitVec.eq_of_toNat_eq ((zextAddr_toNat _).trans hnnn)⟩

theorem stepCore_of_finished {s : State} (h : s.finished) : stepCore s = .next s := by
  obtain ⟨nnn, hdec, htarget⟩ := decodeWord_of_finished h
  have hpc : s.pc.toNat % 4096 ≠ 4095 := by
    obtain ⟨hlt, -⟩ := h
    omega
  have hjump : exec (.jp nnn) s = .next (s.jump (zextAddr nnn)) := rfl
  rw [stepCore_of_decode hpc hdec, hjump, htarget]
  rfl

/-- Settles O16: the schedule is no part of being finished, so the core stays where it is with the event taken too. -/
theorem aFinishedProgramNeverChanges : Obligations.AFinishedProgramNeverChanges := by
  refine fun s hfin => ⟨stepCore_of_finished hfin, fun hsched => ?_, fun hev => ?_⟩
  · rw [step_of_empty_schedule hsched, stepCore_of_finished hfin]
  · rw [step_of_nextEvent hev]
    exact stepCore_of_finished (s := s.eventTaken) hfin

end Sys2Proof.Machine

/-! PROOFS. The exceptions: which instructions complete. -/

namespace Sys2Proof.Machine

/-! ### Completion (R190, R193) -/

theorem storeFits_of_storeLength_eq_zero {i : Instr} (h : storeLength i = 0) (s : State) : storeFits i s := by
  rw [storeFits, h]
  exact (startAddr_lt s.i).le

/-- An instruction that completes stored its bytes whole; the two stores complete only so. -/
theorem storeFits_of_exec_next {i : Instr} {s t : State} (h : exec i s = .next t) : storeFits i s := by
  cases i
  case ldBVx x =>
    obtain ⟨hfits, -⟩ := storeAtI_next (bytes := bcdDigits (s.getV x)) h
    exact hfits
  case ldMiVx x =>
    obtain ⟨hfits, -⟩ := storeAtI_next (bytes := s.regsUpTo x) h
    rwa [regsUpTo_length] at hfits
  all_goals exact storeFits_of_storeLength_eq_zero rfl s

/-- Settles O11: no instruction refuses, and one that faults is a store whose bytes do not fit. -/
theorem everyInstructionCompletesUnlessItsStoreOverruns :
    Obligations.EveryInstructionCompletesUnlessItsStoreOverruns := by
  refine fun i s => ⟨fun ⟨_, hnext⟩ => storeFits_of_exec_next hnext, fun hfits => ?_⟩
  cases hexec : exec i s with
  | next t => exact ⟨t, rfl⟩
  | fault f =>
    obtain ⟨-, -, hover⟩ := exec_fault i s f hexec
    exact absurd hfits hover
  | refused r => exact absurd hexec (exec_not_refused i s r)

end Sys2Proof.Machine
